-- ==== Sys2Proof/Word.lean ====
section
/-! DEFINITION. The integers and byte strings the unit computes with: bytes, 32- and 64-bit words, byte
strings of a known length, and the eight-word chaining value (00_scope.md rule R10, 10_state.md rule R30). -/

namespace Sys2Proof

/-- A byte, 8 bits (R10). -/
abbrev Byte := BitVec 8

/-- A 32-bit unsigned integer: a command word, `LAYER` (R23, R91). -/
abbrev Word32 := BitVec 32

/-- A 64-bit unsigned integer: an operand register, a chaining word (R23, R30). -/
abbrev Word64 := BitVec 64

/-- A byte string of length `n`, byte 0 first (R10). -/
structure Bytes (n : Nat) where
  data : List Byte
  size : data.length = n
deriving DecidableEq, Repr

/-- A *block* in the source's sense, 64 bytes (R12, conflict C1). -/
abbrev Block := Bytes 64

/-- Two consecutive blocks: the 128 bytes of one *SHA block* (R12, R125). Block lists of even length are
lists of pairs, so an odd list cannot be written (93_implementation_defined.md U2). -/
abbrev BlockPair := Block × Block

/-- Eight 64-bit words: the chaining value `H[0..7]` (R30) and the working variables `a..h` (R135). -/
structure Chain where
  w0 : Word64
  w1 : Word64
  w2 : Word64
  w3 : Word64
  w4 : Word64
  w5 : Word64
  w6 : Word64
  w7 : Word64
deriving DecidableEq, Repr

/-- The words `H[0] .. H[7]` in order (R30). -/
def Chain.toList (c : Chain) : List Word64 :=
  [c.w0, c.w1, c.w2, c.w3, c.w4, c.w5, c.w6, c.w7]

end Sys2Proof
end

