-- ==== Sys2Proof/Config.lean ====
section
/-! DEFINITION. What an implementation fixes and what the spec leaves open (00_scope.md rule R6,
92_eei_decisions.md part 2): the selection inputs, the shape of the parent oracle's questions and answers
(43_label.md rule R206), the free values, and the parameter values of the one named reset state. -/

namespace Sys2Proof

/-- The five Boolean inputs of the backend selection, constant from reset to reset (R6, R36, R37, R121). -/
structure SelInputs where
  archOk   : Bool
  cpuAvx   : Bool
  cpuAvx2  : Bool
  featAvx  : Bool
  featAvx2 : Bool
deriving DecidableEq, Repr

/-- Which entry point consults the oracle: `PLAIN` for `CLABEL`, `EXP` for `CLABELX` (R206). -/
inductive OracleVariant where
  | plain
  | exp
deriving DecidableEq, Repr

/-- The arguments of `ParentOracle` (R206). `mem` and `memSize` are the memory as it stands when the
command executes; `xbase` is none for `PLAIN`. -/
structure OracleQuery where
  variant : OracleVariant
  node    : Word64
  lbase   : Word64
  xbase   : Option Word64
  cache   : BitVec 1
  mem     : List Host.Cell
  memSize : Nat
deriving DecidableEq, Repr

/-- An answer of `ParentOracle` (R206): `Ok(blocks, tail)`, the blocks in pairs, or `Err(e)`. -/
inductive OracleAnswer where
  | ok  (blocks : List BlockPair) (tail : Option Block)
  | err (e : Word64)
deriving DecidableEq, Repr, Inhabited

/-- FREE VALUE (assumption 6). The oracle relation of R206: the answer to a question at the `n`-th
consultation. Nothing is known of it (R207, 91_not_in_source.md N10 to N13). -/
opaque Config.parentOracle : OracleQuery → Nat → OracleAnswer

/-- FREE VALUE (assumption 8). The unspecified bytes of a node's slot after a collaborator error (R208, U1). -/
opaque Config.freeByte : Nat → Byte

/-- FREE VALUE (assumption 15). Byte `i` of `FrReduce(x)`, the field collaborator's reduction (R232, U11). -/
opaque Config.frReduceByte : Bytes 32 → Nat → Byte

/-- FREE VALUE (assumption 15). `Encode(key, decoded)`, the encode collaborator (R234, U11). The spec gives it no type
and no constraint; that a node is a byte string, decoded or encoded, of any length, is the model's choice. -/
opaque Config.encode : Bytes 32 → List Byte → List Byte

/-- DESIGN CHOICE (assumption 2). `NCTX` of `State.reset`, the value 95_test_vectors.md section 3 uses. -/
def Config.resetContexts : Nat := 2

/-- DESIGN CHOICE (assumption 3). `MEMSIZE` of `State.reset`, the value 95_test_vectors.md section 3 uses. -/
def Config.resetMemSize : Nat := 0x10000

/-- DESIGN CHOICE (assumption 4). The selection inputs of `State.reset`, those of 95_test_vectors.md section 3. -/
def Config.resetInputs : SelInputs :=
  { archOk := true, cpuAvx := false, cpuAvx2 := false, featAvx := false, featAvx2 := false }

end Sys2Proof
end

