-- ==== Sys2Proof/Syntax.lean ====
section
/-! DEFINITION. The instruction set as syntax: the eight commands (30_encoding.md rules R95, R96), the
registers by name (10_state.md rules R23 to R38), and the host's actions (30_encoding.md rule R101). -/

namespace Sys2Proof

/-- The eight commands, one constructor per row of the opcode table (R95, R96). No command carries an
operand (R92). -/
inductive Instr where
  | bsel
  | hnew
  | hinput
  | hfinish
  | hfinishw
  | expand
  | clabel
  | clabelx
deriving DecidableEq, Repr

/-- The registers of one context (R23, R27, R34, R35). -/
inductive CtxReg where
  | cmd
  | status
  | errInfo
  | src
  | cnt
  | dst
  | rid
  | lbase
  | xbase
  | layer
  | node
  | cache
deriving DecidableEq, Repr

/-- The global registers (R36, R37, R38). -/
inductive GlobalReg where
  | cpucap
  | featsel
  | backend
deriving DecidableEq, Repr

/-- What a register number names (R43). -/
inductive Reg where
  | ctx (r : CtxReg)
  | global (r : GlobalReg)
  | unmapped
deriving DecidableEq, Repr

/-- The host's actions (R101). Registers are written and read by context and number, as the abstract
tuples of R100. `reset` carries the selection inputs that hold until the next reset (R290, R301). -/
inductive HostAction where
  | cmd   (ctx : Nat) (word : Word32)
  | wr    (ctx : Nat) (reg : Nat) (value : Word64)
  | rd    (ctx : Nat) (reg : Nat)
  | rdGlobal (reg : GlobalReg)
  | mw    (addr : Nat) (bytes : List Byte)
  | mr    (addr : Nat) (n : Nat)
  | reset (inputs : SelInputs)
deriving DecidableEq, Repr

end Sys2Proof
end

