-- ==== Sys2Proof/Machine/State.lean ====
section
/-! DEFINITION. The state of the unit (10_state.md rules R20 to R43) as plain data, the model's own fields
beside it (the host's pending actions, what it has read, the oracle's ready answers, the free-value counter),
the reasons a step can stop, and the state after reset (R42). -/

namespace Sys2Proof.Machine

/-- The three configuration errors (R121, R251 codes 1, 2, 3). -/
inductive CfgError where
  | arch
  | conflict
  | unavail
deriving DecidableEq, Repr

/-- The global register `BACKEND` (R38): `SEL` and, exactly when the selection failed, `CFGERR`. -/
inductive Backend where
  | unselected
  | portable
  | avx
  | avx2
  | failed (e : CfgError)
deriving DecidableEq, Repr

/-- The unit's fault causes, one per row of R251's table but row 0. These are architectural: a command that
raises one ends in a NEXT state with the cause in `STATUS.FAULT` (R252). -/
inductive FaultCause where
  | cfg (e : CfgError)
  | illegalCmd
  | preDeadState
  | preOddBlocks
  | preExpandLen
  | preFinishwLen
  | memRange
deriving DecidableEq, Repr

/-- The result codes of `STATUS.RES` (R255). -/
inductive ResultCode where
  | ok
  | collabErr
deriving DecidableEq, Repr

/-- A hash state value `hs = (H[0..7], LEN_HI, LEN_LO)` (R30, R31, R160). -/
structure HashState where
  h     : Chain
  lenHi : Word64
  lenLo : Word64
deriving DecidableEq, Repr

/-- The private state of one worker (R21). `hash` is the live hash state, none when `HLIVE = 0` (R32: then
`H` and `LEN` hold no value). `fault` is `STATUS.FAULT`, none for code 0, and `res` is `STATUS.RES` (R34). -/
structure Context where
  src     : Word64
  cnt     : Word64
  dst     : Word64
  rid     : Word64
  lbase   : Word64
  xbase   : Word64
  layer   : Word32
  node    : Word64
  cache   : BitVec 1
  hash    : Option HashState
  fault   : Option FaultCause
  res     : ResultCode
  errInfo : Word64
deriving DecidableEq, Repr

/-- A context after reset (R42). -/
def Context.reset : Context :=
  { src := 0, cnt := 0, dst := 0, rid := 0, lbase := 0, xbase := 0, layer := 0, node := 0, cache := 0,
    hash := none, fault := none, res := .ok, errInfo := 0 }

/-- `Mem` (R41, R60): the listed bytes, addresses strictly rising, none equal to `unwrittenByte`. -/
abbrev Memory := List Host.Cell

/-- What an unlisted address reads as. DESIGN CHOICE (assumption 5): the spec leaves the memory after reset
arbitrary (R42, U9). -/
def unwrittenByte : Byte := 0

/-- What a host read hands back: a register's value (R24) or a byte string (R81). -/
inductive Reply where
  | register (value : Word64)
  | bytes (data : List Byte)
deriving DecidableEq, Repr

/-- The state. `ctxs`, `backend` and `mem` are R20's; `inputs` and `memSize` are the parameters of R22 that a
run fixes, and the number of contexts `NCTX` is the length of `ctxs`. The model's own fields (assumptions 1,
6, 7, 9): `current` is the context whose `CMD` was written last, `actions` the host actions still to come in
their total order (R76), `replies` what the host has read, oldest first, `answers` the oracle answers already
determined, oldest first, and `tick` the counter that free values are drawn at. -/
structure State where
  ctxs    : List Context
  backend : Backend
  inputs  : SelInputs
  memSize : Nat
  mem     : Memory
  current : Nat
  actions : List HostAction
  replies : List Reply
  answers : List OracleAnswer
  tick    : Nat
deriving DecidableEq, Repr

/-- Why the machine stops with a fault. The unit's own faults are not here: they are next states (R252). -/
inductive Fault where
  /-- Raised by the host actions `MW` and `MR` for bytes outside `[0, MEMSIZE)`: an address that does not
  exist (R60, R81: not an action of the model). Safe: the machine stops. -/
  | hostAccessOutOfRange (addr n : Nat)
deriving DecidableEq, Repr

/-- Why the machine refuses. -/
inductive Refusal where
  /-- Raised by an arm of `exec` whose instruction has no meaning yet. Safe. -/
  | notModelled (mnemonic : String)
  /-- Raised by a command, register write or register read for a context number `NCTX` or above: there is no
  such context (R21), so it is no host action (R101). Safe. -/
  | noSuchContext (k : Nat)
  /-- Raised by a register write of a value that does not fit the register's width: it cannot be written
  (R24, D33, U6). Safe. -/
  | valueTooWide (reg : Nat) (value : Word64)
deriving DecidableEq, Repr

/-- The state after reset for given parameters and a given memory (R42: the inputs and the memory are not
reset's to choose). Nothing is pending and nothing has been read. -/
def State.afterReset (nctx memSize : Nat) (inputs : SelInputs) (mem : Memory) : State :=
  { ctxs := List.replicate nctx Context.reset
    backend := .unselected
    inputs := inputs
    memSize := memSize
    mem := mem
    current := 0
    actions := []
    replies := []
    answers := []
    tick := 0 }

/-- The machine right after reset (R42), for the parameter values of assumptions 2 to 5 and 7. -/
def State.reset : State :=
  State.afterReset Config.resetContexts Config.resetMemSize Config.resetInputs []

end Sys2Proof.Machine
end

