-- ==== Sys2Proof/Machine/Flags.lean ====
section
/-! DEFINITION. The status and control registers as the host reads them (10_state.md rules R34 to R39,
60_exceptions.md rules R251, R255). The unit has no arithmetic condition codes (R39). -/

namespace Sys2Proof.Machine

/-- The code of a configuration error (R38, R251). -/
def CfgError.code : CfgError → BitVec 4
  | .arch => 1
  | .conflict => 2
  | .unavail => 3

/-- The code in `STATUS.FAULT` (R251). -/
def FaultCause.code : FaultCause → BitVec 8
  | .cfg e => e.code.setWidth 8
  | .illegalCmd => 4
  | .preDeadState => 5
  | .preOddBlocks => 6
  | .preExpandLen => 7
  | .preFinishwLen => 8
  | .memRange => 9

/-- `STATUS` bits 7:0, 0 for no fault (R34). -/
def faultField (c : Context) : BitVec 8 :=
  match c.fault with
  | none => 0
  | some f => f.code

/-- The code in `STATUS.RES` (R255). -/
def ResultCode.code : ResultCode → BitVec 8
  | .ok => 0
  | .collabErr => 1

/-- `HLIVE`: the context holds a hash state (R32). -/
def hlive (c : Context) : Bool :=
  c.hash.isSome

/-- The register `STATUS` (R34): `FAULT` 7:0, `RES` 15:8, `HLIVE` 16, zeros above. -/
def statusWord (c : Context) : Word32 :=
  (0 : BitVec 15) ++ BitVec.ofBool (hlive c) ++ c.res.code ++ faultField c

/-- `BACKEND.SEL` (R38). -/
def Backend.sel : Backend → BitVec 3
  | .unselected => 0
  | .portable => 1
  | .avx => 2
  | .avx2 => 3
  | .failed _ => 7

/-- The configuration error a failed selection has memoised (R38, R122). -/
def Backend.error? : Backend → Option CfgError
  | .failed e => some e
  | .unselected => none
  | .portable => none
  | .avx => none
  | .avx2 => none

/-- `BACKEND.CFGERR`, nonzero exactly when `SEL = 7` (R38). -/
def Backend.cfgErr (b : Backend) : BitVec 4 :=
  match b.error? with
  | none => 0
  | some e => e.code

/-- The register `BACKEND` (R38): `SEL` 2:0, bit 3 zero, `CFGERR` 7:4, zeros above. -/
def backendWord (b : Backend) : Word32 :=
  (0 : BitVec 24) ++ b.cfgErr ++ (0 : BitVec 1) ++ b.sel

/-- The register `CPUCAP` (R36): `ARCH_OK`, `CPU_AVX`, `CPU_AVX2` in bits 0, 1, 2. -/
def cpucapWord (i : SelInputs) : Word32 :=
  (0 : BitVec 29) ++ BitVec.ofBool i.cpuAvx2 ++ BitVec.ofBool i.cpuAvx ++ BitVec.ofBool i.archOk

/-- The register `FEATSEL` (R37): `FEAT_AVX`, `FEAT_AVX2` in bits 0, 1. -/
def featselWord (i : SelInputs) : Word32 :=
  (0 : BitVec 30) ++ BitVec.ofBool i.featAvx2 ++ BitVec.ofBool i.featAvx

end Sys2Proof.Machine
end

