-- ==== Sys2Proof/Machine/Bytes.lean ====
section
/-! DEFINITION. Byte strings and byte orders (00_scope.md rule R10, 20_memory.md rule R65): concatenation,
zeros, big- and little-endian encodings and their inverses. -/

namespace Sys2Proof.Machine

/-- Concatenation, left operand at the lower indices (R10). -/
def Bytes.append {m n : Nat} (a : Bytes m) (b : Bytes n) : Bytes (m + n) :=
  ⟨a.data ++ b.data, by rw [List.length_append, a.size, b.size]⟩

/-- `zeros(n)` (R10). -/
def zeros (n : Nat) : Bytes n :=
  ⟨List.replicate n 0, List.length_replicate⟩

/-- The first `n` bytes of a list, filled up with zeros where it is shorter. Used where the list has `n` bytes
or more, so that nothing is filled up. -/
def firstBytes (n : Nat) (l : List Byte) : Bytes n :=
  ⟨(l ++ List.replicate n 0).take n, by simp⟩

/-- The `n` bytes `f 0 .. f (n-1)`. -/
def tabulate (n : Nat) (f : Nat → Byte) : Bytes n :=
  ⟨(List.range n).map f, by simp⟩

/-- The `n` low bytes of `v`, most significant first. -/
def beBytes : Nat → Nat → List Byte
  | 0, _ => []
  | n + 1, v => BitVec.ofNat 8 (v / 256 ^ n) :: beBytes n v

/-- The `n` low bytes of `v`, least significant first. -/
def leBytes : Nat → Nat → List Byte
  | 0, _ => []
  | n + 1, v => BitVec.ofNat 8 v :: leBytes n (v / 256)

theorem beBytes_length (n v : Nat) : (beBytes n v).length = n := by
  induction n with
  | zero => rfl
  | succ n ih => simp [beBytes, ih]

theorem leBytes_length (n v : Nat) : (leBytes n v).length = n := by
  induction n generalizing v with
  | zero => rfl
  | succ n ih => simp [leBytes, ih]

/-- The integer a big-endian byte string stands for. -/
def beValue (l : List Byte) : Nat :=
  l.foldl (fun acc b => acc * 256 + b.toNat) 0

/-- The integer a little-endian byte string stands for. -/
def leValue : List Byte → Nat
  | [] => 0
  | b :: l => b.toNat + 256 * leValue l

/-- `be32(v)` (R10). -/
def be32 (v : Word32) : Bytes 4 :=
  ⟨beBytes 4 v.toNat, beBytes_length 4 _⟩

/-- `be64(v)` (R10). -/
def be64 (v : Word64) : Bytes 8 :=
  ⟨beBytes 8 v.toNat, beBytes_length 8 _⟩

/-- `le32(v)` (R10). -/
def le32 (v : Word32) : Bytes 4 :=
  ⟨leBytes 4 v.toNat, leBytes_length 4 _⟩

/-- `from_be64(s)` (R10). -/
def fromBe64 (l : List Byte) : Word64 :=
  BitVec.ofNat 64 (beValue l)

/-- `from_le32(s)` (R10). -/
def fromLe32 (l : List Byte) : Word32 :=
  BitVec.ofNat 32 (leValue l)

/-- The first `n` 64-bit big-endian words of a byte string (R130). -/
def beWords : Nat → List Byte → List Word64
  | 0, _ => []
  | n + 1, l => fromBe64 (l.take 8) :: beWords n (l.drop 8)

/-- The first `n` 32-bit little-endian words of a byte string (R190). -/
def leWords : Nat → List Byte → List Word32
  | 0, _ => []
  | n + 1, l => fromLe32 (l.take 4) :: leWords n (l.drop 4)

end Sys2Proof.Machine
end

