-- ==== Sys2Proof/Machine/Memory.lean ====
section
/-! DEFINITION. The named operations over `Mem` (20_memory.md rules R60 to R64): one byte read and written in
the canonical form, byte strings over them, and the range check. -/

namespace Sys2Proof.Machine

/-- The canonical form: addresses strictly rising, no entry that an unlisted address reads as. -/
abbrev Memory.wf (m : Memory) : Prop :=
  m.Pairwise (fun p q => p.1 < q.1) ∧ ∀ p ∈ m, p.2 ≠ unwrittenByte

/-- The byte at an address. -/
def readByte : Memory → Nat → Byte
  | [], _ => unwrittenByte
  | (k, v) :: m, a => if k = a then v else readByte m a

/-- An entry for `a`, put before the entries of `m`, unless the byte is what an unlisted address reads as. -/
def putByte (a : Nat) (b : Byte) (m : Memory) : Memory :=
  if b = unwrittenByte then m else (a, b) :: m

/-- Write the byte at an address, keeping the canonical form. -/
def writeByte : Memory → Nat → Byte → Memory
  | [], a, b => putByte a b []
  | (k, v) :: m, a, b =>
    if a < k then putByte a b ((k, v) :: m)
    else if a = k then putByte a b m
    else (k, v) :: writeByte m a b

/-- The `n` bytes at `a .. a+n-1`. -/
def readList (m : Memory) (a : Nat) : Nat → List Byte
  | 0 => []
  | n + 1 => readByte m a :: readList m (a + 1) n

theorem readList_length (m : Memory) (a n : Nat) : (readList m a n).length = n := by
  induction n generalizing a with
  | zero => rfl
  | succ n ih => simp [readList, ih]

/-- `MemRead(addr, n)` (R62). -/
def memRead (m : Memory) (a n : Nat) : Bytes n :=
  ⟨readList m a n, readList_length m a n⟩

/-- `MemWrite(addr, n, s)` (R63). -/
def memWrite (m : Memory) (a : Nat) : List Byte → Memory
  | [] => m
  | b :: s => memWrite (writeByte m a b) (a + 1) s

/-- `n` consecutive pairs of 64-byte blocks from `a` (R68: block `i` at `SRC + 64*i`). -/
def readPairs (m : Memory) (a : Nat) : Nat → List BlockPair
  | 0 => []
  | n + 1 => (memRead m a 64, memRead m (a + 64) 64) :: readPairs m (a + 128) n

/-- `InRange(addr, n)` in unbounded integers (R64). -/
def State.inRange (s : State) (a n : Nat) : Bool :=
  a + n ≤ s.memSize

end Sys2Proof.Machine
end

