-- ==== Sys2Proof/Machine/Operands.lean ====
section
/-! DEFINITION. The operands of the commands (30_encoding.md rule R94) and their effective addresses
(20_memory.md rule R68): all are operand registers of the executing context, read whole (R93). -/

namespace Sys2Proof.Machine

/-- The bytes `HINPUT` absorbs: `64 * CNT` (R68), in unbounded integers. -/
def inputLength (c : Context) : Nat :=
  64 * c.cnt.toNat

/-- The pairs of blocks `HINPUT` absorbs: `CNT` consecutive blocks at `SRC` (R94), `CNT` even. -/
def inputPairs (m : Memory) (c : Context) : List BlockPair :=
  readPairs m c.src.toNat (c.cnt.toNat / 2)

/-- The address of the 64-byte result of `HFINISH`, `HFINISHW` and `EXPAND` (R68). -/
def resultAddr (c : Context) : Nat :=
  c.dst.toNat

/-- The address of the node's slot, `LBASE + 32*NODE` in unbounded integers (R68, R73). -/
def slotAddr (c : Context) : Nat :=
  c.lbase.toNat + 32 * c.node.toNat

/-- Where a command that runs to its end stores, and how many bytes (R68). -/
def storeRange (i : Instr) (c : Context) : Option (Nat × Nat) :=
  match i with
  | .bsel => none
  | .hnew => none
  | .hinput => none
  | .hfinish => some (resultAddr c, 64)
  | .hfinishw => some (resultAddr c, 64)
  | .expand => some (resultAddr c, 64)
  | .clabel => some (slotAddr c, 32)
  | .clabelx => some (slotAddr c, 32)

/-- The question a label command puts to the parent oracle (R203, R204): `XBASE` only for `EXP`. -/
def oracleQuery (v : OracleVariant) (c : Context) (s : State) : OracleQuery :=
  { variant := v
    node := c.node
    lbase := c.lbase
    xbase := (match v with
      | .plain => none
      | .exp => some c.xbase)
    cache := c.cache
    mem := s.mem
    memSize := s.memSize }

/-- The contract's bound on an answer: fewer than `2^55` blocks, that is fewer than `2^54` pairs (R206). Pairs
past the bound are dropped, so every answer that keeps the contract stands as it is. -/
def boundAnswer : OracleAnswer → OracleAnswer
  | .ok blocks tail => .ok (blocks.take (2 ^ 54 - 1)) tail
  | .err e => .err e

/-- The answer the oracle gives a question now: the oldest answer already determined, else the free value at
the present tick (assumptions 6 and 7). -/
def State.oracleAnswer (s : State) (q : OracleQuery) : OracleAnswer :=
  boundAnswer (match s.answers with
    | a :: _ => a
    | [] => Config.parentOracle q s.tick)

/-- The state after one consultation: the answer used up, the tick advanced (R268: never a second time). -/
def State.consulted (s : State) : State :=
  { s with answers := s.answers.tail, tick := s.tick + 1 }

/-- The 32 unspecified bytes of a slot after a collaborator error, free values at the given tick (R208, U1). -/
def unspecifiedSlot (tick : Nat) : Bytes 32 :=
  tabulate 32 (fun i => Config.freeByte (32 * tick + i))

end Sys2Proof.Machine
end

