-- ==== Sys2Proof/Machine/Ops.lean ====
section
/-! DEFINITION. The operations every command shares: the executing context, the backend selection (40_backend.md
rules R121, R122), fault entry (60_exceptions.md rule R252), the order of events of a command (30_encoding.md
rule R104), and normal completion. There is no return from a fault but reset (R258). -/

namespace Sys2Proof.Machine

/-- A step's outcome on this machine. -/
abbrev StepOutcome := Host.Outcome State Fault Refusal

/-- The executing context, if it exists (R21). -/
def State.context? (s : State) : Option Context :=
  s.ctxs[s.current]?

/-- Replace context `k`. -/
def State.setContextAt (s : State) (k : Nat) (c : Context) : State :=
  { s with ctxs := s.ctxs.set k c }

/-- Replace the executing context. -/
def State.setContext (s : State) (c : Context) : State :=
  s.setContextAt s.current c

/-- Replace the memory. -/
def State.setMem (s : State) (m : Memory) : State :=
  { s with mem := m }

/-- `Select` (R121). -/
def select (i : SelInputs) : Backend :=
  if !i.archOk then .failed .arch
  else if i.featAvx && i.featAvx2 then .failed .conflict
  else if i.featAvx2 then (if i.cpuAvx2 then .avx2 else .failed .unavail)
  else if i.featAvx then (if i.cpuAvx then .avx else .failed .unavail)
  else if i.cpuAvx2 then .avx2
  else if i.cpuAvx then .avx
  else .portable

/-- What `BACKEND` holds once `EnsureBackend` has run (R122): the selection is computed at most once. -/
def ensuredBackend (s : State) : Backend :=
  match s.backend with
  | .unselected => select s.inputs
  | .portable => .portable
  | .avx => .avx
  | .avx2 => .avx2
  | .failed e => .failed e

/-- The one-time write of `BACKEND` by `EnsureBackend` (R122); its configuration fault is `runCommand`'s. -/
def ensureBackend (s : State) : State :=
  { s with backend := ensuredBackend s }

/-- FAULT ENTRY (R252): the cause in `STATUS.FAULT` and the information word in `ERRINFO` of the executing
context, and nothing else changes. No handler is entered and there is no program counter. -/
def enterFault (s : State) (c : Context) (f : FaultCause) (info : Word64) : State :=
  s.setContext { c with fault := some f, errInfo := info }

/-- Steps (1), (3) and onward of the order of events (R104) for a command in the executing context `c`, whose
own checks and effect are `body`: a faulted context does nothing (R253), then `EnsureBackend` (R122), which
may raise a configuration fault with information word 0 (R251, R254), then the body. -/
def runCommand (s : State) (body : Context → State → State) : StepOutcome :=
  match s.context? with
  | none => .refused (.noSuchContext s.current)
  | some c =>
    if c.fault.isSome then .next s
    else
      match (ensuredBackend s).error? with
      | some e => .next (enterFault (ensureBackend s) c (.cfg e) 0)
      | none => .next (body c (ensureBackend s))

/-- Steps (1) and (2) of the order of events (R104) for an illegal word: a faulted context does nothing, any
other raises `ILLEGAL_CMD` with the word as information (R97, R251). `EnsureBackend` is not reached. -/
def runIllegal (s : State) (w : Word32) : StepOutcome :=
  match s.context? with
  | none => .refused (.noSuchContext s.current)
  | some c =>
    if c.fault.isSome then .next s
    else .next (enterFault s c .illegalCmd (w.setWidth 64))

/-- Normal completion: the executing context becomes `c` with `STATUS.RES` 0 (R104 step 7, R255). -/
def complete (s : State) (c : Context) : State :=
  s.setContext { c with res := .ok }

/-- Normal completion of a command that stores the byte string `bytes` at `addr` (R63). -/
def completeStore (s : State) (c : Context) (addr : Nat) (bytes : List Byte) : State :=
  complete (s.setMem (memWrite s.mem addr bytes)) c

end Sys2Proof.Machine
end

