-- ==== Sys2Proof/Machine/Backend.lean ====
section
/-! DEFINITION. The Compression Backend Selector's command (40_backend.md rule R123). -/

namespace Sys2Proof.Machine

/-- What `BSEL` does after `EnsureBackend`: nothing else, then `RES` 0 (R123). -/
def bselBody (c : Context) (s : State) : State :=
  complete s c

/-- `BSEL` (R123). -/
def execBsel (s : State) : StepOutcome :=
  runCommand s bselBody

end Sys2Proof.Machine
end

