-- ==== Sys2Proof/Machine/Expand.lean ====
section
/-! DEFINITION. The Domain Expansion Transform and the command `EXPAND` (42_expand.md rules R190, R191). -/

namespace Sys2Proof.Machine

/-- The second half of `Expand(x)`, steps 2 and 3 of R190: the eight little-endian words of `x` in reverse
order, each complemented, written little-endian. -/
def expandedHalf (x : Bytes 32) : Bytes 32 :=
  ⟨(leWords 8 x.data).reverse.flatMap (fun w => (le32 (~~~w)).data), by
    simp [leWords, (le32 _).size]⟩

/-- `Expand(x)` (R190). -/
def expandBytes (x : Bytes 32) : Bytes 64 :=
  Bytes.append x (expandedHalf x)

/-- The checks and the effect of `EXPAND` (R191): the input is read before the result is written (R71). -/
def expandBody (c : Context) (s : State) : State :=
  if c.cnt.toNat ≠ 32 then enterFault s c .preExpandLen c.cnt
  else if !s.inRange c.src.toNat 32 then enterFault s c .memRange c.src
  else if !s.inRange (resultAddr c) 64 then enterFault s c .memRange c.dst
  else completeStore s c (resultAddr c) (expandBytes (memRead s.mem c.src.toNat 32)).data

/-- `EXPAND` (R191). -/
def execExpand (s : State) : StepOutcome :=
  runCommand s expandBody

end Sys2Proof.Machine
end

