-- ==== Sys2Proof/Machine/Sha512.lean ====
section
/-! DEFINITION. The compress operation and the SHA-512 compression function (40_backend.md rules R125, R130
to R136). Every backend computes this one function (R128). -/

namespace Sys2Proof.Machine

/-- `ROTR64(x, n)` for `0 < n < 64` (R10). -/
def rotr64 (x : Word64) (n : Nat) : Word64 :=
  (x >>> n) ||| (x <<< (64 - n))

/-- `SHR64(x, n)` (R10). -/
def shr64 (x : Word64) (n : Nat) : Word64 :=
  x >>> n

/-- The exclusive or of the rotations of `x` by each of the amounts: what the four sigma functions of R131 are
made of. -/
def xorRotations (x : Word64) (amounts : List Nat) : Word64 :=
  amounts.foldl (fun acc n => acc ^^^ rotr64 x n) 0

/-- `BSIG0` (R131). -/
def bsig0 (x : Word64) : Word64 :=
  xorRotations x [28, 34, 39]

/-- `BSIG1` (R131). -/
def bsig1 (x : Word64) : Word64 :=
  xorRotations x [14, 18, 41]

/-- `SSIG0` (R131). -/
def ssig0 (x : Word64) : Word64 :=
  xorRotations x [1, 8] ^^^ shr64 x 7

/-- `SSIG1` (R131). -/
def ssig1 (x : Word64) : Word64 :=
  xorRotations x [19, 61] ^^^ shr64 x 6

/-- The initial vector `IV[0..7]` (R132). -/
def initialVector : Chain :=
  { w0 := 0x6a09e667f3bcc908, w1 := 0xbb67ae8584caa73b
    w2 := 0x3c6ef372fe94f82b, w3 := 0xa54ff53a5f1d36f1
    w4 := 0x510e527fade682d1, w5 := 0x9b05688c2b3e6c1f
    w6 := 0x1f83d9abfb41bd6b, w7 := 0x5be0cd19137e2179 }

/-- One line of the table of R133: four consecutive round constants. -/
structure KLine where
  k0 : Word64
  k1 : Word64
  k2 : Word64
  k3 : Word64
deriving DecidableEq, Repr

/-- R133's lines for `K[0..19]`. -/
def roundConstantLines0 : List KLine :=
  [ ⟨0x428a2f98d728ae22, 0x7137449123ef65cd, 0xb5c0fbcfec4d3b2f, 0xe9b5dba58189dbbc⟩,
    ⟨0x3956c25bf348b538, 0x59f111f1b605d019, 0x923f82a4af194f9b, 0xab1c5ed5da6d8118⟩,
    ⟨0xd807aa98a3030242, 0x12835b0145706fbe, 0x243185be4ee4b28c, 0x550c7dc3d5ffb4e2⟩,
    ⟨0x72be5d74f27b896f, 0x80deb1fe3b1696b1, 0x9bdc06a725c71235, 0xc19bf174cf692694⟩,
    ⟨0xe49b69c19ef14ad2, 0xefbe4786384f25e3, 0x0fc19dc68b8cd5b5, 0x240ca1cc77ac9c65⟩ ]

/-- R133's lines for `K[20..39]`. -/
def roundConstantLines1 : List KLine :=
  [ ⟨0x2de92c6f592b0275, 0x4a7484aa6ea6e483, 0x5cb0a9dcbd41fbd4, 0x76f988da831153b5⟩,
    ⟨0x983e5152ee66dfab, 0xa831c66d2db43210, 0xb00327c898fb213f, 0xbf597fc7beef0ee4⟩,
    ⟨0xc6e00bf33da88fc2, 0xd5a79147930aa725, 0x06ca6351e003826f, 0x142929670a0e6e70⟩,
    ⟨0x27b70a8546d22ffc, 0x2e1b21385c26c926, 0x4d2c6dfc5ac42aed, 0x53380d139d95b3df⟩,
    ⟨0x650a73548baf63de, 0x766a0abb3c77b2a8, 0x81c2c92e47edaee6, 0x92722c851482353b⟩ ]

/-- R133's lines for `K[40..59]`. -/
def roundConstantLines2 : List KLine :=
  [ ⟨0xa2bfe8a14cf10364, 0xa81a664bbc423001, 0xc24b8b70d0f89791, 0xc76c51a30654be30⟩,
    ⟨0xd192e819d6ef5218, 0xd69906245565a910, 0xf40e35855771202a, 0x106aa07032bbd1b8⟩,
    ⟨0x19a4c116b8d2d0c8, 0x1e376c085141ab53, 0x2748774cdf8eeb99, 0x34b0bcb5e19b48a8⟩,
    ⟨0x391c0cb3c5c95a63, 0x4ed8aa4ae3418acb, 0x5b9cca4f7763e373, 0x682e6ff3d6b2b8a3⟩,
    ⟨0x748f82ee5defb2fc, 0x78a5636f43172f60, 0x84c87814a1f0ab72, 0x8cc702081a6439ec⟩ ]

/-- R133's lines for `K[60..79]`. -/
def roundConstantLines3 : List KLine :=
  [ ⟨0x90befffa23631e28, 0xa4506cebde82bde9, 0xbef9a3f7b2c67915, 0xc67178f2e372532b⟩,
    ⟨0xca273eceea26619c, 0xd186b8c721c0c207, 0xeada7dd6cde0eb1e, 0xf57d4f7fee6ed178⟩,
    ⟨0x06f067aa72176fba, 0x0a637dc5a2c898a6, 0x113f9804bef90dae, 0x1b710b35131c471b⟩,
    ⟨0x28db77f523047d84, 0x32caab7b40c72493, 0x3c9ebe0a15c9bebc, 0x431d67c49c100d4c⟩,
    ⟨0x4cc5d4becb3e42b6, 0x597f299cfc657e2a, 0x5fcb6fab3ad6faec, 0x6c44198c4a475817⟩ ]

/-- The round constants `K[0..79]`, the lines of R133 read from left to right. -/
def roundConstants : List Word64 :=
  (roundConstantLines0 ++ roundConstantLines1 ++ roundConstantLines2 ++ roundConstantLines3).flatMap
    (fun l => [l.k0, l.k1, l.k2, l.k3])

/-- One step of the message schedule (R134) on the words so far, the NEWEST first: with `W[t-1]` at the head,
`W[t-2]`, `W[t-7]`, `W[t-15]`, `W[t-16]` stand at positions 1, 6, 14 and 15. -/
def scheduleWord (ws : List Word64) : Word64 :=
  ssig1 (ws.getD 1 0) + ws.getD 6 0 + ssig0 (ws.getD 14 0) + ws.getD 15 0

/-- `n` steps of the message schedule, the newest word first (R134). -/
def extendSchedule : Nat → List Word64 → List Word64
  | 0, ws => ws
  | n + 1, ws => extendSchedule n (scheduleWord ws :: ws)

/-- The eighty words `W[0..79]` of a SHA block (R130, R134). -/
def messageSchedule (m : Bytes 128) : List Word64 :=
  (extendSchedule 64 (beWords 16 m.data).reverse).reverse

/-- `Ch(e, f, g)` of the working variables (R131, R135). -/
def roundCh (v : Chain) : Word64 :=
  (v.w4 &&& v.w5) ^^^ (~~~v.w4 &&& v.w6)

/-- `Maj(a, b, c)` of the working variables (R131, R135). -/
def roundMaj (v : Chain) : Word64 :=
  (v.w0 &&& v.w1) ^^^ (v.w0 &&& v.w2) ^^^ (v.w1 &&& v.w2)

/-- `T1` of a round with `K[t] + W[t]` given in two parts (R135). -/
def roundT1 (v : Chain) (kw : Word64 × Word64) : Word64 :=
  v.w7 + bsig1 v.w4 + roundCh v + kw.1 + kw.2

/-- `T2` of a round (R135). -/
def roundT2 (v : Chain) : Word64 :=
  bsig0 v.w0 + roundMaj v

/-- One round on the working variables `a..h` with `K[t]` and `W[t]` (R135). -/
def shaRound (v : Chain) (kw : Word64 × Word64) : Chain :=
  { w0 := roundT1 v kw + roundT2 v, w1 := v.w0, w2 := v.w1, w3 := v.w2
    w4 := v.w3 + roundT1 v kw, w5 := v.w4, w6 := v.w5, w7 := v.w6 }

/-- Word by word addition modulo 2^64: the feed-forward (R136). -/
def Chain.add (x y : Chain) : Chain :=
  { w0 := x.w0 + y.w0, w1 := x.w1 + y.w1, w2 := x.w2 + y.w2, w3 := x.w3 + y.w3
    w4 := x.w4 + y.w4, w5 := x.w5 + y.w5, w6 := x.w6 + y.w6, w7 := x.w7 + y.w7 }

/-- `Compress1024(Hcur, M)` (R136). -/
def compress1024 (h : Chain) (m : Bytes 128) : Chain :=
  Chain.add h ((roundConstants.zip (messageSchedule m)).foldl shaRound h)

/-- The SHA block two consecutive blocks form (R125, conflict C1). -/
def shaBlockOf (p : BlockPair) : Bytes 128 :=
  Bytes.append p.1 p.2

/-- `Compress(Hin, blocks)` on a list of even length (R125). -/
def compress (h : Chain) (blocks : List BlockPair) : Chain :=
  blocks.foldl (fun hcur p => compress1024 hcur (shaBlockOf p)) h

/-- `Serialise(H)` (R171). -/
def serialise (h : Chain) : Bytes 64 :=
  ⟨h.toList.flatMap (fun w => (be64 w).data), by simp [Chain.toList, (be64 _).size]⟩

/-- The 128-byte blocks of a padded message of `q` SHA blocks. -/
def shaBlocks : Nat → List Byte → List (Bytes 128)
  | 0, _ => []
  | q + 1, l => firstBytes 128 l :: shaBlocks q (l.drop 128)

/-- The number of zero bytes of the standard padding of an `n`-byte message: the least `k` with
`(n + 1 + k + 16) mod 128 = 0` (R177). -/
def paddingZeros (n : Nat) : Nat :=
  (128 - (n + 17) % 128) % 128

/-- The padded message (R177). DESIGN CHOICE (assumption 20): from `2^125` bytes on, where `(8n) div 2^64` exceeds 64
bits and R10 gives `be64` no value, that word is taken modulo `2^64`. -/
def padMessage (m : List Byte) : List Byte :=
  m ++ [0x80] ++ (zeros (paddingZeros m.length)).data
    ++ (be64 (BitVec.ofNat 64 (8 * m.length / 2 ^ 64))).data
    ++ (be64 (BitVec.ofNat 64 (8 * m.length))).data

/-- `StdSHA512(m)`, the standard digest of a message of any length (R177; from `2^125` bytes on see `padMessage`,
assumption 20). -/
def stdSha512 (m : List Byte) : Bytes 64 :=
  serialise ((shaBlocks ((padMessage m).length / 128) (padMessage m)).foldl compress1024 initialVector)

end Sys2Proof.Machine
end

