-- ==== Sys2Proof/Machine/Hash.lean ====
section
/-! DEFINITION. The Streaming Hash State: its pure functions and the commands `HNEW`, `HINPUT`, `HFINISH` and
`HFINISHW` (41_streaming_hash.md rules R160 to R171). -/

namespace Sys2Proof.Machine

/-- `HashNew()` (R161). -/
def hashNew : HashState :=
  { h := initialVector, lenHi := 0, lenLo := 0 }

/-- `Add128((hi, lo), delta)` (R163). For the rule's `delta < 2^64` the carry `s / 2^64` is 0 or 1. -/
def add128 (hi lo : Word64) (delta : Nat) : Word64 × Word64 :=
  let s := lo.toNat + delta
  (hi + BitVec.ofNat 64 (s / 2 ^ 64), BitVec.ofNat 64 s)

/-- `HashInput(hs, blocks)` (R164); `N`, the number of 64-byte blocks, is twice the number of pairs. -/
def hashInput (hs : HashState) (blocks : List BlockPair) : HashState :=
  let len := add128 hs.lenHi hs.lenLo (512 * (2 * blocks.length))
  { h := compress hs.h blocks, lenHi := len.1, lenLo := len.2 }

/-- `PadBlock` (R166). -/
def padBlock : Block :=
  Bytes.append (⟨[0x80], rfl⟩ : Bytes 1) (zeros 63)

/-- `LenBlock(hi, lo)` (R166). -/
def lenBlock (hi lo : Word64) : Block :=
  Bytes.append (Bytes.append (zeros 48) (be64 hi)) (be64 lo)

/-- `LenBlock1(hi, lo)` (R166, conflict C2). -/
def lenBlock1 (hi lo : Word64) : Block :=
  Bytes.append (Bytes.append (Bytes.append (⟨[0x80], rfl⟩ : Bytes 1) (zeros 47)) (be64 hi)) (be64 lo)

/-- `HashFinish(hs)` (R167). -/
def hashFinish (hs : HashState) : Bytes 64 :=
  serialise (compress hs.h [(padBlock, lenBlock hs.lenHi hs.lenLo)])

/-- `HashFinishWith(hs, block0)` (R169). -/
def hashFinishWith (hs : HashState) (block0 : Block) : Bytes 64 :=
  let len := add128 hs.lenHi hs.lenLo 512
  serialise (compress hs.h [(block0, lenBlock1 len.1 len.2)])

/-- The effect of `HNEW` (R162): a fresh hash state takes the place of any live one (R176). -/
def hnewBody (c : Context) (s : State) : State :=
  complete s { c with hash := some hashNew }

/-- The checks and the effect of `HINPUT` (R165). -/
def hinputBody (c : Context) (s : State) : State :=
  match c.hash with
  | none => enterFault s c .preDeadState 0
  | some hs =>
    if c.cnt.toNat % 2 = 1 then enterFault s c .preOddBlocks c.cnt
    else if !s.inRange c.src.toNat (inputLength c) then enterFault s c .memRange c.src
    else complete s { c with hash := some (hashInput hs (inputPairs s.mem c)) }

/-- The checks and the effect of `HFINISH` (R168). -/
def hfinishBody (c : Context) (s : State) : State :=
  match c.hash with
  | none => enterFault s c .preDeadState 0
  | some hs =>
    if !s.inRange (resultAddr c) 64 then enterFault s c .memRange c.dst
    else completeStore s { c with hash := none } (resultAddr c) (hashFinish hs).data

/-- The checks and the effect of `HFINISHW` (R170): `block0` is read before the digest is written (R71). -/
def hfinishwBody (c : Context) (s : State) : State :=
  match c.hash with
  | none => enterFault s c .preDeadState 0
  | some hs =>
    if c.cnt.toNat ≠ 64 then enterFault s c .preFinishwLen c.cnt
    else if !s.inRange c.src.toNat 64 then enterFault s c .memRange c.src
    else if !s.inRange (resultAddr c) 64 then enterFault s c .memRange c.dst
    else completeStore s { c with hash := none } (resultAddr c)
      (hashFinishWith hs (memRead s.mem c.src.toNat 64)).data

/-- `HNEW` (R162). -/
def execHnew (s : State) : StepOutcome :=
  runCommand s hnewBody

/-- `HINPUT` (R165). -/
def execHinput (s : State) : StepOutcome :=
  runCommand s hinputBody

/-- `HFINISH` (R168). -/
def execHfinish (s : State) : StepOutcome :=
  runCommand s hfinishBody

/-- `HFINISHW` (R170). -/
def execHfinishw (s : State) : StepOutcome :=
  runCommand s hfinishwBody

end Sys2Proof.Machine
end

