-- ==== Sys2Proof/Machine/Label.lean ====
section
/-! DEFINITION. Node label derivation: the header, the label prefix, the parent digest, truncation and mask,
and the commands `CLABEL` and `CLABELX` (43_label.md rules R200 to R215). -/

namespace Sys2Proof.Machine

/-- `Header(layer, node)` (R201). -/
def labelHeader (layer : Word32) (node : Word64) : Block :=
  Bytes.append (Bytes.append (be32 layer) (be64 node)) (zeros 52)

/-- `LabelPrefix(rid, layer, node)` (R202): the transient hash state `T` of R211. -/
def labelPrefix (rid : Bytes 32) (layer : Word32) (node : Word64) : HashState :=
  hashInput hashNew [(expandBytes rid, labelHeader layer node)]

/-- `ParentDigest(T, blocks, tail)` (R206). -/
def parentDigest (t : HashState) (blocks : List BlockPair) (tail : Option Block) : Bytes 64 :=
  match tail with
  | none => hashFinish (hashInput t blocks)
  | some b => hashFinishWith (hashInput t blocks) b

/-- `Truncate(digest)` (R209): the first 32 bytes. -/
def truncateDigest (d : Bytes 64) : Bytes 32 :=
  ⟨d.data.take 32, by rw [List.length_take, d.size]; rfl⟩

/-- `Mask(l)` (R210): the two top bits of byte 31 cleared. -/
def maskLabel (l : Bytes 32) : Bytes 32 :=
  ⟨l.data.take 31 ++ [l.data.getD 31 0 &&& 0x3F], by
    rw [List.length_append, List.length_take, l.size]; rfl⟩

/-- The label a digest gives: one atomic write of `Mask(Truncate(digest))` (R69, R210). -/
def labelOf (digest : Bytes 64) : Bytes 32 :=
  maskLabel (truncateDigest digest)

/-- A collaborator error (R208): `RES` 1, `ERRINFO` the error value, the slot's bytes unspecified. -/
def collaboratorError (s : State) (c : Context) (e : Word64) : State :=
  (s.setMem (memWrite s.mem (slotAddr c) (unspecifiedSlot s.tick).data)).setContext
    { c with res := .collabErr, errInfo := e }

/-- The checks and the effect of both label commands (R203, R204). The context's own hash state is neither
read nor written (R211); the oracle is consulted once, and not at all for node 0 (R205, R268). -/
def deriveLabel (v : OracleVariant) (c : Context) (s : State) : State :=
  if !s.inRange c.rid.toNat 32 then enterFault s c .memRange c.rid
  else if !s.inRange (slotAddr c) 32 then enterFault s c .memRange c.lbase
  else
    let t := labelPrefix (memRead s.mem c.rid.toNat 32) c.layer c.node
    if c.node = 0 then completeStore s c (slotAddr c) (labelOf (hashFinish t)).data
    else
      match s.oracleAnswer (oracleQuery v c s) with
      | .err e => (collaboratorError s c e).consulted
      | .ok blocks tail =>
        (completeStore s c (slotAddr c) (labelOf (parentDigest t blocks tail)).data).consulted

/-- `CLABEL` (R203). -/
def execClabel (s : State) : StepOutcome :=
  runCommand s (deriveLabel .plain)

/-- `CLABELX` (R204). -/
def execClabelx (s : State) : StepOutcome :=
  runCommand s (deriveLabel .exp)

end Sys2Proof.Machine
end

