-- ==== Sys2Proof/Machine/Dispatch.lean ====
section
/-! DEFINITION. One arm per command: each calls its meaning (30_encoding.md rules R95, R96). -/

namespace Sys2Proof.Machine

def exec (i : Instr) (s : State) : Host.Outcome State Fault Refusal :=
  match i with
  | .bsel => Sys2Proof.Machine.execBsel s
  | .hnew => Sys2Proof.Machine.execHnew s
  | .hinput => Sys2Proof.Machine.execHinput s
  | .hfinish => Sys2Proof.Machine.execHfinish s
  | .hfinishw => Sys2Proof.Machine.execHfinishw s
  | .expand => Sys2Proof.Machine.execExpand s
  | .clabel => Sys2Proof.Machine.execClabel s
  | .clabelx => Sys2Proof.Machine.execClabelx s

end Sys2Proof.Machine
end

