-- ==== Sys2Proof/Decode.lean ====
section
/-! DEFINITION. The command decoder and encoder (30_encoding.md rules R91, R95, R97) and the register
numbers and widths (10_state.md rules R23 to R43). -/

namespace Sys2Proof

/-- One row of the opcode map (R95): a word `w` is this command when `w &&& mask = pattern`. -/
structure OpcodeRow where
  mask    : Word32
  pattern : Word32
  instr   : Instr
deriving DecidableEq, Repr

/-- The opcode map (R95). The mask is all ones in every row, since the field `zero` must be 0. -/
def opcodeMap : List OpcodeRow :=
  [ ⟨0xffffffff, 0x00000001, .bsel⟩,
    ⟨0xffffffff, 0x00000010, .hnew⟩,
    ⟨0xffffffff, 0x00000011, .hinput⟩,
    ⟨0xffffffff, 0x00000012, .hfinish⟩,
    ⟨0xffffffff, 0x00000013, .hfinishw⟩,
    ⟨0xffffffff, 0x00000020, .expand⟩,
    ⟨0xffffffff, 0x00000030, .clabel⟩,
    ⟨0xffffffff, 0x00000031, .clabelx⟩ ]

/-- What a 32-bit word is: one of the eight commands, or illegal (R97: the decoder is total). -/
inductive Decoded where
  | command (i : Instr)
  | illegal (word : Word32)
deriving DecidableEq, Repr

/-- Decode a command word (R95, R97). -/
def decode (w : Word32) : Decoded :=
  match opcodeMap.find? (fun r => w &&& r.mask == r.pattern) with
  | some r => .command r.instr
  | none => .illegal w

/-- The `opcode` field, bits 7:0, of each command (R91, R95). -/
def opcodeOf : Instr → BitVec 8
  | .bsel => 0x01
  | .hnew => 0x10
  | .hinput => 0x11
  | .hfinish => 0x12
  | .hfinishw => 0x13
  | .expand => 0x20
  | .clabel => 0x30
  | .clabelx => 0x31

/-- The command word of format `Z` (R91): `zero` in bits 31:8, `opcode` in bits 7:0. -/
def encode (i : Instr) : Word32 :=
  (0 : BitVec 24) ++ opcodeOf i

/-- The mnemonic a command is written with (R99). -/
def mnemonicOf : Instr → String
  | .bsel => "BSEL"
  | .hnew => "HNEW"
  | .hinput => "HINPUT"
  | .hfinish => "HFINISH"
  | .hfinishw => "HFINISHW"
  | .expand => "EXPAND"
  | .clabel => "CLABEL"
  | .clabelx => "CLABELX"

/-- The instruction the decoder reads from a word of the opcode table's numbering. A command is one
32-bit word (R91, R98) written to `CMD`, so there are no bytes to lay out; bits above `nbits` are 0. -/
def decodeTableWord (nbits w : Nat) : Option Instr :=
  match decode (BitVec.ofNat 32 (w % 2 ^ nbits)) with
  | .command i => some i
  | .illegal _ => none

/-- The register a number names (R23, R27, R34 to R38); every other number names none (R43). -/
def regOfNumber : Nat → Reg
  | 0x00 => .ctx .cmd
  | 0x01 => .ctx .status
  | 0x02 => .ctx .errInfo
  | 0x03 => .ctx .src
  | 0x04 => .ctx .cnt
  | 0x05 => .ctx .dst
  | 0x06 => .ctx .rid
  | 0x07 => .ctx .lbase
  | 0x08 => .ctx .xbase
  | 0x09 => .ctx .layer
  | 0x0A => .ctx .node
  | 0x0B => .ctx .cache
  | 0x40 => .global .cpucap
  | 0x41 => .global .featsel
  | 0x42 => .global .backend
  | _ => .unmapped

/-- The number of a context register (R23, R27, R34, R35). -/
def numberOf : CtxReg → Nat
  | .cmd => 0x00
  | .status => 0x01
  | .errInfo => 0x02
  | .src => 0x03
  | .cnt => 0x04
  | .dst => 0x05
  | .rid => 0x06
  | .lbase => 0x07
  | .xbase => 0x08
  | .layer => 0x09
  | .node => 0x0A
  | .cache => 0x0B

/-- The width in bits of a context register (R23, R27, R34, R35). -/
def widthOf : CtxReg → Nat
  | .cmd => 32
  | .status => 32
  | .layer => 32
  | .cache => 1
  | .errInfo => 64
  | .src => 64
  | .cnt => 64
  | .dst => 64
  | .rid => 64
  | .lbase => 64
  | .xbase => 64
  | .node => 64

end Sys2Proof
end

