-- ==== Sys2Proof/Machine/HostActions.lean ====
section
/-! DEFINITION. What each host action does (30_encoding.md rules R90, R101 to R104; 10_state.md rules R24, R27,
R43; 20_memory.md rule R81; 70_reset_and_hazards.md rule R290), and the pseudo-instructions (R102). -/

namespace Sys2Proof.Machine

/-- The value a context register reads as, widened with zeros (R24, R27, R34, R35). -/
def readRegister (c : Context) : CtxReg → Word64
  | .cmd => 0
  | .status => (statusWord c).setWidth 64
  | .errInfo => c.errInfo
  | .src => c.src
  | .cnt => c.cnt
  | .dst => c.dst
  | .rid => c.rid
  | .lbase => c.lbase
  | .xbase => c.xbase
  | .layer => c.layer.setWidth 64
  | .node => c.node
  | .cache => c.cache.setWidth 64

/-- The context after a host write of a value that fits the register (R24); `STATUS` and `ERRINFO` are
read-only (R34, R35), and a write of `CMD` issues a command instead (R27, see `hostWrite`). -/
def writeRegister (c : Context) (r : CtxReg) (v : Word64) : Context :=
  match r with
  | .cmd => c
  | .status => c
  | .errInfo => c
  | .src => { c with src := v }
  | .cnt => { c with cnt := v }
  | .dst => { c with dst := v }
  | .rid => { c with rid := v }
  | .lbase => { c with lbase := v }
  | .xbase => { c with xbase := v }
  | .layer => { c with layer := v.setWidth 32 }
  | .node => { c with node := v }
  | .cache => { c with cache := v.setWidth 1 }

/-- The value a global register reads as (R36, R37, R38). -/
def readGlobal (s : State) : GlobalReg → Word64
  | .cpucap => (cpucapWord s.inputs).setWidth 64
  | .featsel => (featselWord s.inputs).setWidth 64
  | .backend => (backendWord s.backend).setWidth 64

/-- Hand a value back to the host. -/
def State.reply (s : State) (r : Reply) : State :=
  { s with replies := s.replies ++ [r] }

/-- `RESET` (R290, R42): every piece of the unit's state but `Mem` to its reset value, the selection inputs
those that hold from now on. `NCTX` and `MEMSIZE` are parameters, and the host's own fields are not the unit's. -/
def resetUnit (s : State) (inputs : SelInputs) : State :=
  { State.afterReset s.ctxs.length s.memSize inputs s.mem with
    actions := s.actions
    replies := s.replies
    answers := s.answers
    tick := s.tick }

/-- Issue the word `w` to context `k` (R90, R104); `run` gives the commands their meaning. -/
def issue (run : Instr → State → StepOutcome) (k : Nat) (w : Word32) (s : State) : StepOutcome :=
  match decode w with
  | .command i => run i { s with current := k }
  | .illegal w => runIllegal { s with current := k } w

/-- `WR` (R24, R27, R34, R35, R43). -/
def hostWrite (run : Instr → State → StepOutcome) (k n : Nat) (v : Word64) (s : State) : StepOutcome :=
  match s.ctxs[k]? with
  | none => .refused (.noSuchContext k)
  | some c =>
    match regOfNumber n with
    | .ctx r =>
      if v.toNat < 2 ^ widthOf r then
        (if r = .cmd then issue run k (v.setWidth 32) s
        else .next (s.setContextAt k (writeRegister c r v)))
      else .refused (.valueTooWide n v)
    | .global _ => .next s
    | .unmapped => .next s

/-- `RD` of a register of a context, or of a global register by its number (R24, R36 to R38, R43). -/
def hostRead (k n : Nat) (s : State) : StepOutcome :=
  match s.ctxs[k]? with
  | none => .refused (.noSuchContext k)
  | some c =>
    match regOfNumber n with
    | .ctx r => .next (s.reply (.register (readRegister c r)))
    | .global g => .next (s.reply (.register (readGlobal s g)))
    | .unmapped => .next (s.reply (.register 0))

/-- One host action (R101), the state already past it. -/
def perform (run : Instr → State → StepOutcome) (a : HostAction) (s : State) : StepOutcome :=
  match a with
  | .cmd k w => issue run k w s
  | .wr k n v => hostWrite run k n v s
  | .rd k n => hostRead k n s
  | .rdGlobal g => .next (s.reply (.register (readGlobal s g)))
  | .mw addr bytes =>
    if s.inRange addr bytes.length then .next (s.setMem (memWrite s.mem addr bytes))
    else .fault (.hostAccessOutOfRange addr bytes.length)
  | .mr addr n =>
    if s.inRange addr n then .next (s.reply (.bytes (memRead s.mem addr n).data))
    else .fault (.hostAccessOutOfRange addr n)
  | .reset inputs => .next (resetUnit s inputs)

/-- The write of a context register by name. -/
def wrName (k : Nat) (r : CtxReg) (v : Word64) : HostAction :=
  .wr k (numberOf r) v

/-- `c<k>: <MNEMONIC>` (R101): its word written to `CMD`. -/
def cmdOf (k : Nat) (i : Instr) : HostAction :=
  .cmd k (encode i)

/-- `DIGEST src, n, dst` (R102), `n` even. -/
def digestActions (k : Nat) (src n dst : Word64) : List HostAction :=
  [wrName k .src src, wrName k .cnt n, wrName k .dst dst, cmdOf k .hnew, cmdOf k .hinput, cmdOf k .hfinish]

/-- `DIGESTW src, n, dst` (R102), `n` odd. DESIGN CHOICE (assumption 19): where `src + 64*(n-1)` is `2^64` or more, so
that no such `WR` exists (R24, D33), the sum is taken modulo `2^64`. -/
def digestwActions (k : Nat) (src n dst : Word64) : List HostAction :=
  [wrName k .src src, wrName k .cnt (n - 1), wrName k .dst dst, cmdOf k .hnew, cmdOf k .hinput,
    wrName k .src (src + 64 * (n - 1)), wrName k .cnt 64, cmdOf k .hfinishw]

/-- `LABEL rid, lbase, layer, node` (R102). -/
def labelActions (k : Nat) (rid lbase : Word64) (layer : Word32) (node : Word64) : List HostAction :=
  [wrName k .rid rid, wrName k .lbase lbase, wrName k .layer (layer.setWidth 64), wrName k .node node,
    cmdOf k .clabel]

/-- `LABELX rid, xbase, lbase, layer, node` (R102). -/
def labelxActions (k : Nat) (rid xbase lbase : Word64) (layer : Word32) (node : Word64) : List HostAction :=
  [wrName k .rid rid, wrName k .xbase xbase, wrName k .lbase lbase, wrName k .layer (layer.setWidth 64),
    wrName k .node node, cmdOf k .clabelx]

end Sys2Proof.Machine
end

