-- ==== Sys2Proof/Machine/Step.lean ====
section
/-! DEFINITION. One step: the next host action in the total order (30_encoding.md rules R101, R103; 20_memory.md
rule R76). A unit with no action pending is idle and stays as it is (00_scope.md rule R9, 60_exceptions.md R267). -/

namespace Sys2Proof.Machine

/-- One step of the unit under its host. -/
def step (s : State) : Host.Outcome State Fault Refusal :=
  match s.actions with
  | [] => .next s
  | a :: rest => perform exec a { s with actions := rest }

/-- The state whose next host action writes the word to `CMD` of context 0 (assumption 11). -/
def State.withFetchWord (s : State) (nbits w : Nat) : State :=
  { s with actions := .cmd 0 (BitVec.ofNat 32 (w % 2 ^ nbits)) :: s.actions }

end Sys2Proof.Machine
end

