-- ==== Sys2Proof/Machine/Verification.lean ====
section
/-! DEFINITION. The proof verification structures as host-side reference functions, no commands
(45_verification_reference.md rules R230 to R234; 00_scope.md rule R5). -/

namespace Sys2Proof.Machine

/-- The record both `LabelingProof` and `EncodingProof` are (R230). -/
structure NodeProof where
  parents    : List (Bytes 32)
  layerIndex : Word32
  node       : Word64
deriving DecidableEq, Repr

/-- `ProofStream(rid, proof)` (R231). -/
def proofStream (rid : Bytes 32) (p : NodeProof) : List Byte :=
  (expandBytes rid).data ++ (be32 p.layerIndex).data ++ (be64 p.node).data
    ++ p.parents.flatMap (fun q => (expandBytes q).data)

/-- `FrReduce`, an open parameter (R232, U11). -/
def frReduce (x : Bytes 32) : Bytes 32 :=
  tabulate 32 (Config.frReduceByte x)

/-- `Encode`, an open parameter (R234, U11). The spec types neither the decoded nor the encoded node; that both are
byte strings, of any length, is the model's choice (assumption 15). -/
def encodeValue (key : Bytes 32) (decoded : List Byte) : List Byte :=
  Config.encode key decoded

/-- `ProofKey(rid, proof)` (R232). -/
def proofKey (rid : Bytes 32) (p : NodeProof) : Bytes 32 :=
  frReduce (truncateDigest (stdSha512 (proofStream rid p)))

/-- `LabelingProof::verify` (R233): the actual comparison. -/
def labelingVerify (p : NodeProof) (rid expectedLabel : Bytes 32) : Bool :=
  proofKey rid p == expectedLabel

/-- `EncodingProof::verify` (R234): the actual comparison. The decoded and the encoded node are byte strings of any
length, the model's choice (assumption 15). -/
def encodingVerify (p : NodeProof) (rid : Bytes 32) (expectedEncoded decoded : List Byte) : Bool :=
  encodeValue (proofKey rid p) decoded == expectedEncoded

end Sys2Proof.Machine
end

