-- ==== Sys2Proof/Safety.lean ====
section
/-! DEFINITION. What counts as a safe state and a safe run (00_scope.md rule R9, 60_exceptions.md rule R253), when
a command executes normally, the invariants of the unit, and the host's duties as predicates
(70_reset_and_hazards.md rules R296, R300). -/

namespace Sys2Proof.Machine

/-- Context `k` is faulted (R253). -/
def faultedAt (s : State) (k : Nat) : Prop :=
  ∃ c, s.ctxs[k]? = some c ∧ c.fault ≠ none

/-- A state that may be a good final state: no context is faulted (R9, R253). -/
def unfaulted (s : State) : Prop :=
  ∀ c ∈ s.ctxs, c.fault = none

/-- The executing context is `c`, is not faulted, and the backend selection has succeeded or will (R104 steps 1
and 3). Then a command gets to its own checks. -/
def Ready (s : State) (c : Context) : Prop :=
  s.context? = some c ∧ c.fault = none ∧ (ensuredBackend s).error? = none

/-- The next state of a command of a ready context that raises the fault `f` with information word `info` (R252):
`FAULT` and `ERRINFO` of the context, and before them `EnsureBackend`'s write of `BACKEND` (R122). -/
def faultedState (s : State) (c : Context) (f : FaultCause) (info : Word64) : State :=
  { s with
    backend := ensuredBackend s
    ctxs := s.ctxs.set s.current { c with fault := some f, errInfo := info } }

/-- The memory is in canonical form and lists no address that does not exist (R60). -/
def memoryOk (s : State) : Prop :=
  Memory.wf s.mem ∧ ∀ p ∈ s.mem, p.1 < s.memSize

/-- The parameters' constraints (R6): `NCTX >= 1`, `MEMSIZE <= 2^60`. -/
def parametersOk (s : State) : Prop :=
  1 ≤ s.ctxs.length ∧ s.memSize ≤ 2 ^ 60

/-- `hs` is the hash state after absorbing exactly these blocks since `HNEW` (R33). -/
def absorbed (hs : HashState) (blocks : List BlockPair) : Prop :=
  hs.h = compress initialVector blocks ∧
    hs.lenHi.toNat * 2 ^ 64 + hs.lenLo.toNat = 512 * (2 * blocks.length) % 2 ^ 128

/-- Every live hash state is that of some absorbed blocks (R33). -/
def hashesOk (s : State) : Prop :=
  ∀ c ∈ s.ctxs, ∀ hs, c.hash = some hs → ∃ blocks, absorbed hs blocks

/-- `BACKEND` holds nothing yet or the one value the inputs select (R122, R124). -/
def backendOk (s : State) : Prop :=
  s.backend = .unselected ∨ s.backend = select s.inputs

/-- The record a fault leaves (R251): what `ERRINFO`, `HLIVE` and `BACKEND` hold beside each cause. -/
def faultRecordOk (b : Backend) (c : Context) : Prop :=
  match c.fault with
  | none => True
  | some (.cfg e) => c.errInfo = 0 ∧ b = .failed e
  | some .illegalCmd => ∃ w, decode w = .illegal w ∧ c.errInfo = w.setWidth 64
  | some .preDeadState => c.errInfo = 0 ∧ c.hash = none
  | some .preOddBlocks => c.errInfo.toNat % 2 = 1 ∧ c.hash ≠ none
  | some .preExpandLen => c.errInfo.toNat ≠ 32
  | some .preFinishwLen => c.errInfo.toNat ≠ 64 ∧ c.hash ≠ none
  | some .memRange => True

/-- Every faulted context holds the record of its fault (R251, R253). -/
def faultsOk (s : State) : Prop :=
  ∀ c ∈ s.ctxs, faultRecordOk s.backend c

/-- The invariant every step keeps. -/
structure Invariant (s : State) : Prop where
  memory     : memoryOk s
  parameters : parametersOk s
  hashes     : hashesOk s
  backend    : backendOk s
  faults     : faultsOk s

/-- The bytes of a stored range. -/
def inStore (r : Option (Nat × Nat)) (a : Nat) : Prop :=
  match r with
  | none => False
  | some (base, n) => base ≤ a ∧ a < base + n

/-- The operand registers of two contexts agree (R23, R25). -/
def sameOperands (c d : Context) : Prop :=
  d.src = c.src ∧ d.cnt = c.cnt ∧ d.dst = c.dst ∧ d.rid = c.rid ∧ d.lbase = c.lbase ∧
    d.xbase = c.xbase ∧ d.layer = c.layer ∧ d.node = c.node ∧ d.cache = c.cache

/-- The registers listed for a command in R23's last column agree: what the command may read (R26). -/
def listedOperandsAgree (i : Instr) (c d : Context) : Prop :=
  match i with
  | .bsel => True
  | .hnew => True
  | .hinput => d.src = c.src ∧ d.cnt = c.cnt
  | .hfinish => d.dst = c.dst
  | .hfinishw => d.src = c.src ∧ d.cnt = c.cnt ∧ d.dst = c.dst
  | .expand => d.src = c.src ∧ d.cnt = c.cnt ∧ d.dst = c.dst
  | .clabel =>
    d.rid = c.rid ∧ d.lbase = c.lbase ∧ d.layer = c.layer ∧ d.node = c.node ∧ d.cache = c.cache
  | .clabelx =>
    d.rid = c.rid ∧ d.lbase = c.lbase ∧ d.xbase = c.xbase ∧ d.layer = c.layer ∧ d.node = c.node ∧
      d.cache = c.cache

/-- The parts of a context that are no operand register agree. -/
def sameStatus (c d : Context) : Prop :=
  d.hash = c.hash ∧ d.fault = c.fault ∧ d.res = c.res ∧ d.errInfo = c.errInfo

/-- The checks of a command beyond the configuration, in the order of its rule (R165, R168, R170, R191, R203,
R204, R256): the condition that fails it, the cause, the information word (R251). -/
def checksOf (i : Instr) (c : Context) (memSize : Nat) : List (Bool × FaultCause × Word64) :=
  let beyond (a n : Nat) : Bool := memSize < a + n
  match i with
  | .bsel => []
  | .hnew => []
  | .hinput =>
    [(!hlive c, .preDeadState, 0), (c.cnt.toNat % 2 == 1, .preOddBlocks, c.cnt),
      (beyond c.src.toNat (64 * c.cnt.toNat), .memRange, c.src)]
  | .hfinish => [(!hlive c, .preDeadState, 0), (beyond c.dst.toNat 64, .memRange, c.dst)]
  | .hfinishw =>
    [(!hlive c, .preDeadState, 0), (c.cnt.toNat != 64, .preFinishwLen, c.cnt),
      (beyond c.src.toNat 64, .memRange, c.src), (beyond c.dst.toNat 64, .memRange, c.dst)]
  | .expand =>
    [(c.cnt.toNat != 32, .preExpandLen, c.cnt), (beyond c.src.toNat 32, .memRange, c.src),
      (beyond c.dst.toNat 64, .memRange, c.dst)]
  | .clabel =>
    [(beyond c.rid.toNat 32, .memRange, c.rid), (beyond (c.lbase.toNat + 32 * c.node.toNat) 32, .memRange, c.lbase)]
  | .clabelx =>
    [(beyond c.rid.toNat 32, .memRange, c.rid), (beyond (c.lbase.toNat + 32 * c.node.toNat) 32, .memRange, c.lbase)]

/-- The first check that fails, if one does: the fault a ready command reports (R256). -/
def firstFault (i : Instr) (c : Context) (memSize : Nat) : Option (FaultCause × Word64) :=
  ((checksOf i c memSize).find? (fun k => k.1)).map (fun k => k.2)

/-- The context and the word of the command a host action issues (R27, R90, R101), if it issues one. -/
def issuedWord : HostAction → Option (Nat × Word32)
  | .cmd k w => some (k, w)
  | .wr k n v => if regOfNumber n = .ctx .cmd then some (k, v.setWidth 32) else none
  | .rd _ _ => none
  | .rdGlobal _ => none
  | .mw _ _ => none
  | .mr _ _ => none
  | .reset _ => none

/-- The bytes of a list of pairs of blocks, in order. -/
def messageOf (blocks : List BlockPair) : List Byte :=
  blocks.flatMap (fun p => p.1.data ++ p.2.data)

/-- The bytes of an oracle answer's last block, if it has one. -/
def tailBytes : Option Block → List Byte
  | none => []
  | some b => b.data

/-- Two contexts' node slots do not overlap: the host's duty of R296. -/
def slotsDisjoint (c d : Context) : Prop :=
  slotAddr c + 32 ≤ slotAddr d ∨ slotAddr d + 32 ≤ slotAddr c

/-- The slot just labelled may be relied on: the command completed with `RES` 0 (R300). -/
def labelUsable (c : Context) : Prop :=
  c.fault = none ∧ c.res = .ok

/-- A run of `n` steps that stops nowhere, has performed its last host action and ends with no context faulted: R9's
claim about a program is one about the state after its last host action. -/
def safeRun (n : Nat) (s : State) : Prop :=
  ∃ t, Sys2Proof.core.run n s = .next t ∧ t.actions = [] ∧ unfaulted t

end Sys2Proof.Machine
end

