-- ==== Sys2Proof/WellFormed.lean ====
section
/-! DEFINITION. Which command words, instructions and host actions exist (30_encoding.md rules R91, R97,
R101). An instruction has no operand (R92), so every `Instr` is well formed; the checks are on words and
on host actions. -/

namespace Sys2Proof

/-- An instruction of format `Z` has no operand field that could hold an illegal value (R91, R92). -/
def Instr.wf (i : Instr) : Bool :=
  opcodeOf i != 0

/-- A command word of format `Z` has its field `zero`, bits 31:8, equal to 0 (R91). -/
def wordHasFormatZ (w : Word32) : Bool :=
  w.extractLsb' 8 24 == 0

/-- A host action is one of R101's for a unit with `nctx` contexts and `memSize` bytes: the context
exists (R21), a written value fits the register's width (R24), a memory access lies in `Mem` (R81). -/
def HostAction.wf (nctx memSize : Nat) : HostAction → Bool
  | .cmd k _ => k < nctx
  | .wr k n v =>
    k < nctx && (match regOfNumber n with
      | .ctx r => v.toNat < 2 ^ widthOf r
      | .global _ => true
      | .unmapped => true)
  | .rd k _ => k < nctx
  | .rdGlobal _ => true
  | .mw addr bytes => addr + bytes.length ≤ memSize
  | .mr addr n => addr + n ≤ memSize
  | .reset _ => true

end Sys2Proof
end

