-- ==== Sys2Proof/Certificates/Slice0/Obligations.lean ====
section
/-! DEFINITION. The statements about the unit, each from the rules of the spec its docstring names. No statement
is about a program. -/

open Sys2Proof Sys2Proof.Machine

/-! ### Encoding and stepping -/

/-- R95: the eight words of the opcode map decode to their commands, and words beside them (95_test_vectors.md
F1, F2, B3) to none. -/
def Obligations.WordsOfTheOpcodeMapDecode : Prop :=
  decode 0x00000001 = .command .bsel ∧ decode 0x00000010 = .command .hnew ∧
  decode 0x00000011 = .command .hinput ∧ decode 0x00000012 = .command .hfinish ∧
  decode 0x00000013 = .command .hfinishw ∧ decode 0x00000020 = .command .expand ∧
  decode 0x00000030 = .command .clabel ∧ decode 0x00000031 = .command .clabelx ∧
  decode 0x00000000 = .illegal 0x00000000 ∧ decode 0x00000110 = .illegal 0x00000110 ∧
  decode 0x00000099 = .illegal 0x00000099 ∧ decode 0xffffffff = .illegal 0xffffffff

/-- R91, R95: decoding the word of a well-formed command gives it back. -/
def Obligations.DecodeOfEncodeIsTheCommand : Prop :=
  ∀ i : Instr, i.wf = true → decode (encode i) = .command i

/-- R95: a word decodes to the command of the row whose `match` it equals; every other word decodes to no
command. -/
def Obligations.WordDecodesByTheOpcodeMap : Prop :=
  ∀ w : Word32,
    (decode w = .command .bsel ↔ w = 0x00000001) ∧ (decode w = .command .hnew ↔ w = 0x00000010) ∧
    (decode w = .command .hinput ↔ w = 0x00000011) ∧ (decode w = .command .hfinish ↔ w = 0x00000012) ∧
    (decode w = .command .hfinishw ↔ w = 0x00000013) ∧ (decode w = .command .expand ↔ w = 0x00000020) ∧
    (decode w = .command .clabel ↔ w = 0x00000030) ∧ (decode w = .command .clabelx ↔ w = 0x00000031) ∧
    (w ∉ [0x00000001, 0x00000010, 0x00000011, 0x00000012, 0x00000013, 0x00000020, 0x00000030, 0x00000031] →
      ∀ i, decode w ≠ .command i)

/-- R90, R101: when the next host action writes a command's word to `CMD` of context `k`, the step is that
command executed in context `k`, the action taken off. The list of pending actions is the model's own
(assumption 1). -/
def Obligations.StepRunsTheDecodedCommand : Prop :=
  ∀ (s : State) (k : Nat) (w : Word32) (rest : List HostAction) (i : Instr),
    s.actions = .cmd k w :: rest → decode w = .command i →
    step s = exec i { s with actions := rest, current := k }

/-- R27: a write of register number 0x00 of an existing context with a value of 32 bits issues that word to the
context, and runs the command it decodes to; a read of it returns 0. -/
def Obligations.WriteOfCmdRegisterIssuesTheWord : Prop :=
  ∀ (s : State) (k : Nat) (rest : List HostAction), k < s.ctxs.length →
    (∀ v : Word64, v.toNat < 2 ^ 32 →
      step { s with actions := .wr k 0x00 v :: rest } = step { s with actions := .cmd k (v.setWidth 32) :: rest } ∧
      ∀ i, decode (v.setWidth 32) = .command i →
        step { s with actions := .wr k 0x00 v :: rest } = exec i { s with actions := rest, current := k }) ∧
    step { s with actions := .rd k 0x00 :: rest } =
      .next { s with actions := rest, replies := s.replies ++ [.register 0] }

/-- R97: every word that is none of the eight is illegal, so the decoder is total; an illegal word issued to a
context that is not faulted raises `ILLEGAL_CMD` with the word as information and changes nothing else (in
particular `BACKEND` is not selected, conflict C10). -/
def Obligations.IllegalWordFaultsAndChangesNothingElse : Prop :=
  (∀ w : Word32, (decode w = .illegal w ↔
      w ∉ [0x00000001, 0x00000010, 0x00000011, 0x00000012, 0x00000013, 0x00000020, 0x00000030, 0x00000031]) ∧
    (decode w = .illegal w ∨ ∃ i, decode w = .command i)) ∧
  ∀ (s : State) (k : Nat) (w : Word32) (rest : List HostAction) (c : Context),
    s.actions = .cmd k w :: rest → decode w = .illegal w → s.ctxs[k]? = some c → c.fault = none →
    step s = .next { s with
      actions := rest
      current := k
      ctxs := s.ctxs.set k { c with fault := some .illegalCmd, errInfo := w.setWidth 64 } }

/-- R253: a command word written to `CMD` of a faulted context, legal or not, has no effect whatever. -/
def Obligations.FaultedContextIgnoresEveryWord : Prop :=
  ∀ (s : State) (k : Nat) (w : Word32) (rest : List HostAction) (c : Context),
    s.actions = .cmd k w :: rest → s.ctxs[k]? = some c → c.fault ≠ none →
    step s = .next { s with actions := rest, current := k }

/-- R101, R24, R81: a host action is performed exactly when it is one of R101's: its context exists, a value written to
a context register fits that register, its bytes lie in `Mem`; otherwise the step stops, the model's form of the spec's
'refuse' (assumption 13). That a write of `ERRINFO` or of a global register (0x40 to 0x42, whose value no width is asked
of) is performed, with no effect, is the model's choice (assumption 14). -/
def Obligations.HostActionIsPerformedExactlyWhenWellFormed : Prop :=
  ∀ (s : State) (a : HostAction) (rest : List HostAction), s.actions = a :: rest →
    ((∃ t, step s = .next t) ↔ a.wf s.ctxs.length s.memSize = true)

/-! ### Backend selection -/

/-- R121: which result `Select` gives, each by the inputs that give it. -/
def Obligations.SelectGivesEachResultExactlyOn : Prop :=
  ∀ i : SelInputs,
    (select i = .failed .arch ↔ i.archOk = false) ∧
    (select i = .failed .conflict ↔ i.archOk = true ∧ i.featAvx = true ∧ i.featAvx2 = true) ∧
    (select i = .failed .unavail ↔ i.archOk = true ∧
      ((i.featAvx2 = true ∧ i.featAvx = false ∧ i.cpuAvx2 = false) ∨
        (i.featAvx = true ∧ i.featAvx2 = false ∧ i.cpuAvx = false))) ∧
    (select i = .avx2 ↔ i.archOk = true ∧ i.cpuAvx2 = true ∧ i.featAvx = false) ∧
    (select i = .avx ↔ i.archOk = true ∧ i.cpuAvx = true ∧ i.featAvx2 = false ∧
      (i.featAvx = true ∨ i.cpuAvx2 = false)) ∧
    (select i = .portable ↔ i.archOk = true ∧ i.cpuAvx = false ∧ i.cpuAvx2 = false ∧ i.featAvx = false ∧
      i.featAvx2 = false) ∧
    select i ≠ .unselected

/-- R122: a command in a context that is not faulted leaves in `BACKEND` the selection from the inputs if it was
UNSELECTED and what it held otherwise, written as `SEL` and `CFGERR`; where that is FAILED it raises the
configuration fault of that code, and it then does nothing else. -/
def Obligations.EnsureBackendSelectsOnceAndFaultsWhenFailed : Prop :=
  (Backend.sel .unselected = 0 ∧ Backend.sel .portable = 1 ∧ Backend.sel .avx = 2 ∧ Backend.sel .avx2 = 3 ∧
    (∀ e, Backend.sel (.failed e) = 7 ∧ Backend.cfgErr (.failed e) = e.code ∧
      FaultCause.code (.cfg e) = e.code.setWidth 8) ∧
    Backend.cfgErr .portable = 0 ∧ Backend.cfgErr .avx = 0 ∧ Backend.cfgErr .avx2 = 0) ∧
  ∀ (i : Instr) (s : State) (c : Context), s.context? = some c → c.fault = none →
    (∃ t, exec i s = .next t ∧
      t.backend = if s.backend = .unselected then select s.inputs else s.backend) ∧
    (∀ e, (if s.backend = .unselected then select s.inputs else s.backend) = .failed e →
      exec i s = .next { s with
        backend := .failed e
        ctxs := s.ctxs.set s.current { c with fault := some (.cfg e), errInfo := 0 } })

/-- R38, R39: `BACKEND` is written only where it was UNSELECTED, with the selection from the inputs, or by
`RESET`. -/
def Obligations.BackendIsWrittenOnceBetweenResets : Prop :=
  ∀ s t : State, step s = .next t →
    t.backend = s.backend ∨ (s.backend = .unselected ∧ t.backend = select s.inputs) ∨
      (∃ inputs rest, s.actions = .reset inputs :: rest ∧ t.backend = .unselected)

/-- R128: which backend has been selected has no influence on any command: the next states differ in `BACKEND`
only. -/
def Obligations.SelectedBackendHasNoInfluence : Prop :=
  ∀ (i : Instr) (s t : State) (b b' : Backend),
    b ∈ [Backend.portable, .avx, .avx2] → b' ∈ [Backend.portable, .avx, .avx2] →
    exec i { s with backend := b } = .next t →
    t.backend = b ∧ exec i { s with backend := b' } = .next { t with backend := b' }

/-- R123: `BSEL` does nothing in a faulted context, raises the configuration fault when the selection fails or has
failed, and otherwise performs `EnsureBackend`, sets `RES` to 0, and touches nothing else. -/
def Obligations.BselSelectsAndCompletes : Prop :=
  encode .bsel = 0x00000001 ∧
  ∀ (s : State) (c : Context), s.context? = some c →
    (c.fault ≠ none → exec .bsel s = .next s) ∧
    (∀ e, c.fault = none → (ensuredBackend s).error? = some e →
      exec .bsel s = .next (faultedState s c (.cfg e) 0)) ∧
    (c.fault = none → (ensuredBackend s).error? = none →
      exec .bsel s = .next { s with
        backend := if s.backend = .unselected then select s.inputs else s.backend
        ctxs := s.ctxs.set s.current { c with res := .ok } })

/-! ### SHA-512 -/

/-- R130, R134: the eighty schedule words: the first sixteen are the block's bytes read big-endian, the others
follow the recurrence. -/
def Obligations.MessageScheduleFollowsTheRecurrence : Prop :=
  ∀ m : Bytes 128,
    (messageSchedule m).length = 80 ∧
    (∀ t, t < 16 → (messageSchedule m)[t]? = some (fromBe64 ((m.data.drop (8 * t)).take 8))) ∧
    (∀ t, 16 ≤ t → t < 80 → ∃ w2 w7 w15 w16,
      (messageSchedule m)[t - 2]? = some w2 ∧ (messageSchedule m)[t - 7]? = some w7 ∧
      (messageSchedule m)[t - 15]? = some w15 ∧ (messageSchedule m)[t - 16]? = some w16 ∧
      (messageSchedule m)[t]? = some (ssig1 w2 + w7 + ssig0 w15 + w16))

/-- R125: `Compress` folds `Compress1024` over the pairs from left to right, each pair forming one SHA block. -/
def Obligations.CompressFoldsOverPairs : Prop :=
  ∀ (h : Chain) (b0 b1 : Block) (bs cs : List BlockPair),
    compress h [] = h ∧
    compress h ((b0, b1) :: bs) = compress (compress1024 h (Bytes.append b0 b1)) bs ∧
    compress h (bs ++ cs) = compress (compress h bs) cs

/-- R163: `Add128` is the 128-bit addition with carry from the low into the high word. -/
def Obligations.AddOneTwentyEightCarriesIntoTheHighWord : Prop :=
  ∀ (hi lo : Word64) (delta : Nat), delta < 2 ^ 64 →
    (add128 hi lo delta).2.toNat = (lo.toNat + delta) % 2 ^ 64 ∧
    (add128 hi lo delta).1.toNat =
      (hi.toNat + if 2 ^ 64 ≤ lo.toNat + delta then 1 else 0) % 2 ^ 64 ∧
    (add128 hi lo delta).1.toNat * 2 ^ 64 + (add128 hi lo delta).2.toNat =
      (hi.toNat * 2 ^ 64 + lo.toNat + delta) % 2 ^ 128

/-- R174: the carry at the printed counters, and the length block `HFINISHW` then writes. -/
def Obligations.LengthCounterCarryAtThePrintedValues : Prop :=
  add128 0 (BitVec.ofNat 64 (2 ^ 64 - 1024)) 1024 = (1, 0) ∧
  add128 5 (BitVec.ofNat 64 (2 ^ 64 - 512)) 1024 = (6, 512) ∧
  add128 0 (BitVec.ofNat 64 (2 ^ 64 - 512)) 512 = (1, 0) ∧
  (lenBlock1 1 0).data.drop 48 = (be64 1).data ++ (be64 0).data

/-- R175: absorbing two lists one after the other is absorbing their concatenation; in particular one input of
many pairs is as many inputs of one pair. -/
def Obligations.SplittingAnInputChangesNothing : Prop :=
  ∀ (hs : HashState) (a b : List BlockPair),
    hashInput (hashInput hs a) b = hashInput hs (a ++ b) ∧
    a.foldl (fun st p => hashInput st [p]) hs = hashInput hs a

/-- R172: absorbing a message of whole SHA blocks in pairs and finishing gives the standard digest of the message;
every message of `128 q` bytes is such a list of pairs. From `2^125` bytes on
`stdSha512` is the model's completion of R177 (assumption 20). -/
def Obligations.FinishGivesTheStandardDigest : Prop :=
  (∀ blocks : List BlockPair, hashFinish (hashInput hashNew blocks) = stdSha512 (messageOf blocks)) ∧
  ∀ (m : List Byte) (q : Nat), m.length = 128 * q → ∃ blocks, blocks.length = q ∧ messageOf blocks = m

/-- R173: absorbing all but the last 64 bytes and finishing with those gives the standard digest; every message of
`128 q + 64` bytes is such a list of pairs and a block. From `2^125` bytes on
`stdSha512` is the model's completion of R177 (assumption 20). -/
def Obligations.FinishWithGivesTheStandardDigest : Prop :=
  (∀ (blocks : List BlockPair) (block0 : Block),
    hashFinishWith (hashInput hashNew blocks) block0 = stdSha512 (messageOf blocks ++ block0.data)) ∧
  ∀ (m : List Byte) (q : Nat), m.length = 128 * q + 64 →
    ∃ (blocks : List BlockPair) (block0 : Block), blocks.length = q ∧ messageOf blocks ++ block0.data = m

/-! ### The streaming hash commands -/

/-- R162, R176: `HNEW` gives the context a fresh hash state, live or not before, and `RES` 0. -/
def Obligations.HnewStartsAFreshHash : Prop :=
  encode .hnew = 0x00000010 ∧
  ∀ (s : State) (c : Context), Ready s c →
    exec .hnew s = .next { s with
      backend := ensuredBackend s
      ctxs := s.ctxs.set s.current
        { c with hash := some { h := initialVector, lenHi := 0, lenLo := 0 }, res := .ok } } ∧
    statusWord { c with hash := some { h := initialVector, lenHi := 0, lenLo := 0 }, res := .ok } = 0x00010000

/-- R165: `HINPUT` raises `PRE_DEAD_STATE` without a hash state, `PRE_ODD_BLOCKS` for an odd count, `MEM_RANGE` for
bytes out of range, in this order; else it absorbs the `CNT` blocks at `SRC`: `H` becomes `Compress(H, blocks)`,
`LEN` advances by `512 * CNT`, `HLIVE` stays 1, memory is unchanged, `RES` is 0. -/
def Obligations.HinputAbsorbsTheBlocks : Prop :=
  encode .hinput = 0x00000011 ∧
  ∀ (s : State) (c : Context), Ready s c →
    (c.hash = none → exec .hinput s = .next (faultedState s c .preDeadState 0)) ∧
    ∀ hs, c.hash = some hs →
      (c.cnt.toNat % 2 = 1 → exec .hinput s = .next (faultedState s c .preOddBlocks c.cnt)) ∧
      (c.cnt.toNat % 2 = 0 → s.memSize < c.src.toNat + 64 * c.cnt.toNat →
        exec .hinput s = .next (faultedState s c .memRange c.src)) ∧
      (c.cnt.toNat % 2 = 0 → c.src.toNat + 64 * c.cnt.toNat ≤ s.memSize →
        ∃ blocks : List BlockPair,
          messageOf blocks = readList s.mem c.src.toNat (64 * c.cnt.toNat) ∧
          exec .hinput s = .next { s with
            backend := ensuredBackend s
            ctxs := s.ctxs.set s.current { c with
              hash := some {
                h := compress hs.h blocks
                lenHi := (add128 hs.lenHi hs.lenLo (512 * c.cnt.toNat)).1
                lenLo := (add128 hs.lenHi hs.lenLo (512 * c.cnt.toNat)).2 }
              res := .ok } })

/-- R165, R33: `HINPUT` takes the state of some absorbed blocks to the state of those and the new blocks. -/
def Obligations.HinputExtendsTheAbsorbedMessage : Prop :=
  ∀ (s : State) (c : Context) (hs : HashState) (blocks : List BlockPair), Ready s c → c.hash = some hs →
    absorbed hs blocks → c.cnt.toNat % 2 = 0 → c.src.toNat + 64 * c.cnt.toNat ≤ s.memSize →
    ∃ t c' hs' more, exec .hinput s = .next t ∧ t.context? = some c' ∧ c'.hash = some hs' ∧
      absorbed hs' (blocks ++ more) ∧ messageOf more = readList s.mem c.src.toNat (64 * c.cnt.toNat)

/-- R168: `HFINISH` raises `PRE_DEAD_STATE` without a hash state, then `MEM_RANGE` for a result out of range; else it
writes the digest at `DST`, consumes the hash state and sets `RES` to 0, and every other byte and every other
piece of state is unchanged. -/
def Obligations.HfinishWritesTheDigest : Prop :=
  encode .hfinish = 0x00000012 ∧
  ∀ (s : State) (c : Context), Ready s c → Memory.wf s.mem →
    (c.hash = none → exec .hfinish s = .next (faultedState s c .preDeadState 0)) ∧
    ∀ hs, c.hash = some hs →
      (s.memSize < c.dst.toNat + 64 → exec .hfinish s = .next (faultedState s c .memRange c.dst)) ∧
      (c.dst.toNat + 64 ≤ s.memSize →
        ∃ m, exec .hfinish s = .next { s with
            backend := ensuredBackend s
            mem := m
            ctxs := s.ctxs.set s.current { c with hash := none, res := .ok } } ∧
          readList m (resultAddr c) 64 = (hashFinish hs).data ∧
          ∀ a, ¬ inStore (storeRange .hfinish c) a → readByte m a = readByte s.mem a)

/-- R170: `HFINISHW` raises `PRE_DEAD_STATE` without a hash state, `PRE_FINISHW_LEN` for a count other than 64,
`MEM_RANGE` for `SRC`, then for `DST`; else it writes at `DST` the digest finished with the 64 OLD bytes at `SRC`,
consumes the hash state and sets `RES` to 0, and nothing else changes. -/
def Obligations.HfinishwWritesTheDigest : Prop :=
  encode .hfinishw = 0x00000013 ∧
  ∀ (s : State) (c : Context), Ready s c → Memory.wf s.mem →
    (c.hash = none → exec .hfinishw s = .next (faultedState s c .preDeadState 0)) ∧
    ∀ hs, c.hash = some hs →
      (c.cnt.toNat ≠ 64 → exec .hfinishw s = .next (faultedState s c .preFinishwLen c.cnt)) ∧
      (c.cnt.toNat = 64 → s.memSize < c.src.toNat + 64 →
        exec .hfinishw s = .next (faultedState s c .memRange c.src)) ∧
      (c.cnt.toNat = 64 → c.src.toNat + 64 ≤ s.memSize → s.memSize < c.dst.toNat + 64 →
        exec .hfinishw s = .next (faultedState s c .memRange c.dst)) ∧
      (c.cnt.toNat = 64 → c.src.toNat + 64 ≤ s.memSize → c.dst.toNat + 64 ≤ s.memSize →
        ∃ m, exec .hfinishw s = .next { s with
            backend := ensuredBackend s
            mem := m
            ctxs := s.ctxs.set s.current { c with hash := none, res := .ok } } ∧
          readList m (resultAddr c) 64 = (hashFinishWith hs (memRead s.mem c.src.toNat 64)).data ∧
          ∀ a, ¬ inStore (storeRange .hfinishw c) a → readByte m a = readByte s.mem a)

/-- R172 on the machine: `HFINISH` on the state of some absorbed blocks leaves at `DST` the standard SHA-512
digest of the message they form. From `2^125` bytes on
`stdSha512` is the model's completion of R177 (assumption 20). -/
def Obligations.HfinishLeavesTheStandardDigestOfTheMessage : Prop :=
  ∀ (s : State) (c : Context) (hs : HashState) (blocks : List BlockPair), Ready s c → Memory.wf s.mem →
    c.hash = some hs → absorbed hs blocks → c.dst.toNat + 64 ≤ s.memSize →
    ∃ t, exec .hfinish s = .next t ∧
      readList t.mem c.dst.toNat 64 = (stdSha512 (messageOf blocks)).data

/-- R173 on the machine: `HFINISHW` on the state of some absorbed blocks leaves at `DST` the standard SHA-512
digest of their message followed by the 64 bytes at `SRC`. From `2^125` bytes on
`stdSha512` is the model's completion of R177 (assumption 20). -/
def Obligations.HfinishwLeavesTheStandardDigestOfTheMessage : Prop :=
  ∀ (s : State) (c : Context) (hs : HashState) (blocks : List BlockPair), Ready s c → Memory.wf s.mem →
    c.hash = some hs → absorbed hs blocks → c.cnt = 64 → c.src.toNat + 64 ≤ s.memSize →
    c.dst.toNat + 64 ≤ s.memSize →
    ∃ t, exec .hfinishw s = .next t ∧
      readList t.mem c.dst.toNat 64 =
        (stdSha512 (messageOf blocks ++ readList s.mem c.src.toNat 64)).data

/-! ### Expansion -/

/-- R192, R193: the first half of `Expand(x)` is `x`, and each byte of the second half is the complement of the byte
R193 names; hence `Expand` of zeros, and the second half alone determines `x`. -/
def Obligations.ExpandHasItsClosedForm : Prop :=
  (∀ x : Bytes 32, (expandBytes x).data.take 32 = x.data ∧
    ∀ i b, i < 8 → b < 4 → ∃ v, x.data[4 * (7 - i) + b]? = some v ∧
      (expandBytes x).data[32 + 4 * i + b]? = some (0xFF - v)) ∧
  (expandBytes (zeros 32)).data = List.replicate 32 0 ++ List.replicate 32 0xFF ∧
  (∀ x y : Bytes 32, (expandBytes x).data.drop 32 = (expandBytes y).data.drop 32 → x = y)

/-- R191: `EXPAND` raises `PRE_EXPAND_LEN` for a count other than 32, `MEM_RANGE` for `SRC`, then for `DST`; else it
writes at `DST` the expansion of the 32 OLD bytes at `SRC` and sets `RES` to 0; the hash state and everything else
is unchanged. -/
def Obligations.ExpandWritesTheExpansion : Prop :=
  encode .expand = 0x00000020 ∧
  ∀ (s : State) (c : Context), Ready s c → Memory.wf s.mem →
    (c.cnt.toNat ≠ 32 → exec .expand s = .next (faultedState s c .preExpandLen c.cnt)) ∧
    (c.cnt.toNat = 32 → s.memSize < c.src.toNat + 32 →
      exec .expand s = .next (faultedState s c .memRange c.src)) ∧
    (c.cnt.toNat = 32 → c.src.toNat + 32 ≤ s.memSize → s.memSize < c.dst.toNat + 64 →
      exec .expand s = .next (faultedState s c .memRange c.dst)) ∧
    (c.cnt.toNat = 32 → c.src.toNat + 32 ≤ s.memSize → c.dst.toNat + 64 ≤ s.memSize →
      ∃ m, exec .expand s = .next { s with
          backend := ensuredBackend s
          mem := m
          ctxs := s.ctxs.set s.current { c with res := .ok } } ∧
        readList m (resultAddr c) 64 = (expandBytes (memRead s.mem c.src.toNat 32)).data ∧
        ∀ a, ¬ inStore (storeRange .expand c) a → readByte m a = readByte s.mem a)

/-! ### Labels -/

/-- R205: `CLABEL` and `CLABELX` on node 0 write the masked prefix of the standard digest of the expanded
identifier and the header; no oracle is consulted and the context keeps its hash state. -/
def Obligations.LabelOfNodeZeroIsAStandardDigest : Prop :=
  ∀ (i : Instr) (s : State) (c : Context), i = .clabel ∨ i = .clabelx → Ready s c → Memory.wf s.mem →
    c.node = 0 → c.rid.toNat + 32 ≤ s.memSize → slotAddr c + 32 ≤ s.memSize →
    ∃ m, exec i s = .next { s with
        backend := ensuredBackend s
        mem := m
        ctxs := s.ctxs.set s.current { c with res := .ok } } ∧
      readList m (slotAddr c) 32 = (labelOf (stdSha512
        ((expandBytes (memRead s.mem c.rid.toNat 32)).data ++ (be32 c.layer).data ++ (be64 0).data
          ++ List.replicate 52 0))).data ∧
      ∀ a, ¬ inStore (storeRange i c) a → readByte m a = readByte s.mem a

/-- R203, R204, R206: above node 0, when the oracle answers `Ok(blocks, tail)`, the label written is the masked
prefix of the standard digest of the expanded identifier, the header of R201 (layer, node, 52 zeros), the blocks and
the tail; `RES` is 0. That the answer is used up and
the tick advances is the model's own (assumptions 6 and 7). -/
def Obligations.LabelAboveNodeZeroIsTheDigestOfTheParentStream : Prop :=
  ∀ (i : Instr) (v : OracleVariant) (s : State) (c : Context) (blocks : List BlockPair) (tail : Option Block),
    (i = .clabel ∧ v = .plain) ∨ (i = .clabelx ∧ v = .exp) → Ready s c → Memory.wf s.mem → c.node ≠ 0 →
    c.rid.toNat + 32 ≤ s.memSize → slotAddr c + 32 ≤ s.memSize →
    s.oracleAnswer (oracleQuery v c s) = .ok blocks tail →
    ∃ m, exec i s = .next { s with
        backend := ensuredBackend s
        mem := m
        answers := s.answers.tail
        tick := s.tick + 1
        ctxs := s.ctxs.set s.current { c with res := .ok } } ∧
      readList m (slotAddr c) 32 = (labelOf (stdSha512
        ((expandBytes (memRead s.mem c.rid.toNat 32)).data
          ++ ((be32 c.layer).data ++ (be64 c.node).data ++ List.replicate 52 0)
          ++ messageOf blocks ++ tailBytes tail))).data ∧
      ∀ a, ¬ inStore (storeRange i c) a → readByte m a = readByte s.mem a

/-- R208: when the oracle answers `Err(e)` the command completes with `RES` 1 and `ERRINFO` `e`; the slot's bytes
are free values (assumption 8: the statement says nothing of them), no other byte and no other register changes. -/
def Obligations.CollaboratorErrorIsAResultNotAFault : Prop :=
  ∀ (i : Instr) (v : OracleVariant) (s : State) (c : Context) (e : Word64),
    (i = .clabel ∧ v = .plain) ∨ (i = .clabelx ∧ v = .exp) → Ready s c → c.node ≠ 0 →
    c.rid.toNat + 32 ≤ s.memSize → slotAddr c + 32 ≤ s.memSize →
    s.oracleAnswer (oracleQuery v c s) = .err e →
    ∃ t, exec i s = .next t ∧
      t.ctxs = s.ctxs.set s.current { c with res := .collabErr, errInfo := e } ∧
      t.backend = ensuredBackend s ∧ t.inputs = s.inputs ∧ t.memSize = s.memSize ∧
      ∀ a, ¬ inStore (storeRange i c) a → readByte t.mem a = readByte s.mem a

/-- R209, R210: the label of a digest is its first 32 bytes with the two top bits of byte 31 cleared. -/
def Obligations.LabelIsTheMaskedPrefixOfTheDigest : Prop :=
  ∀ d : Bytes 64, (labelOf d).data.take 31 = d.data.take 31 ∧
    ∃ b, d.data[31]? = some b ∧ (labelOf d).data[31]? = some (b &&& 0x3F)

/-- R212: after a label command that leaves the context unfaulted with `RES` 0, the two top bits of the slot's
last byte are 0. -/
def Obligations.CompletedLabelHasItsTopBitsClear : Prop :=
  ∀ (i : Instr) (s t : State) (c c' : Context), i = .clabel ∨ i = .clabelx → Memory.wf s.mem →
    s.context? = some c → c.fault = none → exec i s = .next t → t.context? = some c' → labelUsable c' →
    readByte t.mem (c.lbase.toNat + 32 * c.node.toNat + 31) &&& 0xC0 = 0

/-- R204: on node 0 `CLABELX` does exactly what `CLABEL` does, and `XBASE` has no influence: from the state with any
other `XBASE`, `CLABELX` gives the next state `CLABEL` gives, that `XBASE` in it. -/
def Obligations.BothLabelCommandsAgreeOnNodeZero : Prop :=
  ∀ (s : State) (c : Context), s.context? = some c → c.node = 0 →
    exec .clabelx s = exec .clabel s ∧
    ∀ (x : Word64) (t : State) (d : Context), exec .clabel s = .next t → t.context? = some d →
      exec .clabelx (s.setContext { c with xbase := x }) = .next (t.setContext { d with xbase := x })

/-- R215: two label commands on equal identifier bytes, layer, node and oracle answer write the same label, in
whatever contexts, states, variants and places. -/
def Obligations.LabelIsDeterminedByItsInputs : Prop :=
  ∀ (i j : Instr) (v w : OracleVariant) (s s' t t' : State) (c c' d d' : Context),
    (i = .clabel ∧ v = .plain) ∨ (i = .clabelx ∧ v = .exp) →
    (j = .clabel ∧ w = .plain) ∨ (j = .clabelx ∧ w = .exp) →
    Memory.wf s.mem → Memory.wf s'.mem → s.context? = some c → s'.context? = some d →
    c.fault = none → d.fault = none → d.layer = c.layer → d.node = c.node →
    memRead s'.mem d.rid.toNat 32 = memRead s.mem c.rid.toNat 32 →
    (c.node ≠ 0 → s'.oracleAnswer (oracleQuery w d s') = s.oracleAnswer (oracleQuery v c s)) →
    exec i s = .next t → exec j s' = .next t' → t.context? = some c' → t'.context? = some d' →
    labelUsable c' → labelUsable d' →
    readList t'.mem (slotAddr d) 32 = readList t.mem (slotAddr c) 32

/-! ### Faults, results, frames -/

/-- R251, R256: a ready command raises exactly the first of its checks that fails, with its information word and
nothing else changed; when none fails it completes with no fault. -/
def Obligations.ReadyCommandRaisesItsFirstFailingCheck : Prop :=
  ∀ (i : Instr) (s : State) (c : Context), Ready s c →
    (∀ f info, firstFault i c s.memSize = some (f, info) → exec i s = .next (faultedState s c f info)) ∧
    (firstFault i c s.memSize = none →
      ∃ t c', exec i s = .next t ∧ t.context? = some c' ∧ c'.fault = none)

/-- R252: a word written to `CMD` that faults its context, a command's or an illegal one, writes `FAULT` and
`ERRINFO` of that context and changes nothing else; a command's one-time write of `BACKEND` stands before the
fault. -/
def Obligations.FaultEntryChangesOnlyFaultAndErrinfo : Prop :=
  ∀ (s t : State) (k : Nat) (w : Word32) (rest : List HostAction) (c c' : Context),
    s.actions = .cmd k w :: rest → s.ctxs[k]? = some c → c.fault = none → step s = .next t →
    t.ctxs[k]? = some c' → c'.fault ≠ none →
    t = { s with
      actions := rest
      current := k
      backend := if decode w = .illegal w then s.backend else ensuredBackend s
      ctxs := s.ctxs.set k { c with fault := c'.fault, errInfo := c'.errInfo } }

/-- R253: no step but `RESET` changes the fault, the error word, the result or the hash state of a faulted
context. -/
def Obligations.OnlyResetClearsAFault : Prop :=
  ∀ (s t : State) (k : Nat) (c : Context), step s = .next t → s.ctxs[k]? = some c → c.fault ≠ none →
    (∀ inputs rest, s.actions ≠ .reset inputs :: rest) →
    ∃ c', t.ctxs[k]? = some c' ∧ sameStatus c c'

/-- R255, R35: a command that completes writes `RES`: 0, `ERRINFO` unchanged, or, for a label command above node 0
whose oracle answered `Err(e)`, 1 with `ERRINFO` `e`. -/
def Obligations.CompletionWritesTheResultCode : Prop :=
  ∀ (i : Instr) (s t : State) (c c' : Context), s.context? = some c → c.fault = none → exec i s = .next t →
    t.context? = some c' → c'.fault = none →
    (c'.res = .ok ∧ c'.errInfo = c.errInfo) ∨
      (c'.res = .collabErr ∧ c.node ≠ 0 ∧
        ((i = .clabel ∧ s.oracleAnswer (oracleQuery .plain c s) = .err c'.errInfo) ∨
          (i = .clabelx ∧ s.oracleAnswer (oracleQuery .exp c s) = .err c'.errInfo)))

/-- R25: no command, faulting or not, writes an operand register. -/
def Obligations.NoCommandWritesAnOperandRegister : Prop :=
  ∀ (i : Instr) (s t : State) (k : Nat) (c : Context), exec i s = .next t → s.ctxs[k]? = some c →
    ∃ c', t.ctxs[k]? = some c' ∧ sameOperands c c'

/-- R26: a command is not influenced by an operand register that is not listed for it in R23. -/
def Obligations.UnlistedOperandsHaveNoInfluence : Prop :=
  ∀ (i : Instr) (s t : State) (c d : Context), s.context? = some c → sameStatus c d → listedOperandsAgree i c d →
    exec i s = .next t →
    ∃ t' c' d', exec i (s.setContext d) = .next t' ∧ t.context? = some c' ∧ t'.context? = some d' ∧
      sameStatus c' d' ∧ sameOperands d d' ∧ t'.mem = t.mem ∧ t'.backend = t.backend ∧
      t'.answers = t.answers ∧ t'.tick = t.tick

/-- R21: a command is not influenced by the other contexts, and leaves them as they are. -/
def Obligations.OtherContextsAreIsolated : Prop :=
  ∀ (i : Instr) (s t : State) (others : List Context),
    others[s.current]? = s.ctxs[s.current]? → exec i s = .next t →
    (∀ j, j ≠ s.current → t.ctxs[j]? = s.ctxs[j]?) ∧
    ∃ t', exec i { s with ctxs := others } = .next t' ∧ t'.context? = t.context? ∧
      (∀ j, j ≠ s.current → t'.ctxs[j]? = others[j]?) ∧ t'.mem = t.mem ∧ t'.backend = t.backend ∧
      t'.answers = t.answers ∧ t'.tick = t.tick

/-- The frame of every command (R20, R25, R68, R211): what it leaves unchanged in a next state. -/
def Obligations.CommandFrame : Prop :=
  ∀ (i : Instr) (s t : State) (c : Context), s.context? = some c → exec i s = .next t →
    t.ctxs.length = s.ctxs.length ∧ t.inputs = s.inputs ∧ t.memSize = s.memSize ∧ t.current = s.current ∧
    t.actions = s.actions ∧ t.replies = s.replies ∧
    (∀ a, ¬ inStore (storeRange i c) a → readByte t.mem a = readByte s.mem a) ∧
    (i ∉ [Instr.clabel, .clabelx] → t.answers = s.answers ∧ t.tick = s.tick) ∧
    ∃ c', t.context? = some c' ∧ sameOperands c c' ∧
      (i ∉ [Instr.hnew, .hinput, .hfinish, .hfinishw] → c'.hash = c.hash) ∧
      (i ∉ [Instr.clabel, .clabelx] → c'.fault = none → c'.errInfo = c.errInfo) ∧
      (c'.fault ≠ none → t.mem = s.mem)

/-- R61, R63, R81: a byte of memory changes in a step only under a host write that covers it or under a legal
command whose store covers it. -/
def Obligations.OnlyStoresChangeMemory : Prop :=
  ∀ (s t : State) (a : Nat), step s = .next t → readByte t.mem a ≠ readByte s.mem a →
    (∃ addr bytes rest, s.actions = .mw addr bytes :: rest ∧ addr ≤ a ∧ a < addr + bytes.length) ∨
    (∃ act rest k w i c, s.actions = act :: rest ∧ issuedWord act = some (k, w) ∧ decode w = .command i ∧
      s.ctxs[k]? = some c ∧ inStore (storeRange i c) a)

/-! ### Memory -/

/-- R63: after `MemWrite` each byte of the range is the written one and every other byte is as before; hence
`MemRead` of the range gives the written bytes (R62). -/
def Obligations.MemoryReadsWhatWasWritten : Prop :=
  ∀ (m : Memory) (addr : Nat) (bytes : List Byte), Memory.wf m →
    (∀ i b, bytes[i]? = some b → readByte (memWrite m addr bytes) (addr + i) = b) ∧
    (∀ a, a < addr ∨ addr + bytes.length ≤ a → readByte (memWrite m addr bytes) a = readByte m a) ∧
    (memRead (memWrite m addr bytes) addr bytes.length).data = bytes

/-- The canonical form is kept by every write and makes equal memories equal data: two canonical memories that
read alike everywhere are the same list. The form is the model's own (assumption 5). -/
def Obligations.CanonicalMemoriesThatReadAlikeAreEqual : Prop :=
  (∀ (m : Memory) (addr : Nat) (bytes : List Byte), Memory.wf m → Memory.wf (memWrite m addr bytes)) ∧
  ∀ m m' : Memory, Memory.wf m → Memory.wf m' → (∀ a, readByte m a = readByte m' a) → m = m'

/-! ### Host actions and reset -/

/-- R23, R24: the names, the numbers and the fields of the operand registers: a host write of number 0x03 to 0x0B with
a value that fits sets the field of that register and nothing else, whatever state the context is in; a read of it
returns the field's current value and changes nothing. That a value that does not fit `LAYER` or `CACHE` stops the
step by name is the model's form of the spec's 'cannot be written' (assumption 13). `CMD`, `STATUS` and `ERRINFO` are
no operand registers: their reads and writes stand in other statements. -/
def Obligations.OperandRegistersReadBackWhatWasWritten : Prop :=
  ([CtxReg.src, .cnt, .dst, .rid, .lbase, .xbase, .layer, .node, .cache].map numberOf =
      [0x03, 0x04, 0x05, 0x06, 0x07, 0x08, 0x09, 0x0A, 0x0B] ∧
    [0x03, 0x04, 0x05, 0x06, 0x07, 0x08, 0x09, 0x0A, 0x0B].map regOfNumber =
      [CtxReg.src, .cnt, .dst, .rid, .lbase, .xbase, .layer, .node, .cache].map Reg.ctx) ∧
  ∀ (s : State) (k : Nat) (c : Context) (v : Word64) (rest : List HostAction), s.ctxs[k]? = some c →
    let afterWrite (n : Nat) := step { s with actions := .wr k n v :: rest }
    let leaves (d : Context) := Host.Outcome.next { s with actions := rest, ctxs := s.ctxs.set k d }
    let afterRead (n : Nat) := step { s with actions := .rd k n :: rest }
    let reads (x : Word64) := Host.Outcome.next { s with actions := rest, replies := s.replies ++ [.register x] }
    (afterWrite 0x03 = leaves { c with src := v } ∧ afterRead 0x03 = reads c.src) ∧
    (afterWrite 0x04 = leaves { c with cnt := v } ∧ afterRead 0x04 = reads c.cnt) ∧
    (afterWrite 0x05 = leaves { c with dst := v } ∧ afterRead 0x05 = reads c.dst) ∧
    (afterWrite 0x06 = leaves { c with rid := v } ∧ afterRead 0x06 = reads c.rid) ∧
    (afterWrite 0x07 = leaves { c with lbase := v } ∧ afterRead 0x07 = reads c.lbase) ∧
    (afterWrite 0x08 = leaves { c with xbase := v } ∧ afterRead 0x08 = reads c.xbase) ∧
    (afterWrite 0x09 = (if v.toNat < 2 ^ 32 then leaves { c with layer := v.setWidth 32 }
        else .refused (.valueTooWide 0x09 v)) ∧ afterRead 0x09 = reads (c.layer.setWidth 64)) ∧
    (afterWrite 0x0A = leaves { c with node := v } ∧ afterRead 0x0A = reads c.node) ∧
    (afterWrite 0x0B = (if v.toNat < 2 then leaves { c with cache := v.setWidth 1 }
        else .refused (.valueTooWide 0x0B v)) ∧ afterRead 0x0B = reads (c.cache.setWidth 64))

/-- R43: a register number that names no register reads 0 and ignores writes. -/
def Obligations.UnmappedRegistersReadZeroAndIgnoreWrites : Prop :=
  ∀ (s : State) (k n : Nat) (v : Word64) (rest : List HostAction), k < s.ctxs.length →
    (0x0C ≤ n ∧ n ≤ 0x3F) ∨ 0x43 ≤ n →
    step { s with actions := .wr k n v :: rest } = .next { s with actions := rest } ∧
    step { s with actions := .rd k n :: rest } =
      .next { s with actions := rest, replies := s.replies ++ [.register 0] }

/-- R34, R35, R251, R255: the fields of `STATUS` with the code of every fault cause and result, its reserved bits 0;
that a host read of 0x01 hands back `STATUS` and of 0x02 `ERRINFO` and changes nothing; and that a host write to
`STATUS` has no effect. That a host write to the read-only `ERRINFO` has none either is the model's reading
(assumption 14). -/
def Obligations.StatusRegisterHasItsFields : Prop :=
  (∀ c : Context,
    (statusWord c).extractLsb' 0 8 = faultField c ∧
    (statusWord c).extractLsb' 8 8 = (if c.res = .ok then 0 else 1) ∧
    (statusWord c).getLsbD 16 = c.hash.isSome ∧
    (statusWord c).extractLsb' 17 15 = 0 ∧
    (faultField c = 0 ↔ c.fault = none) ∧
    (faultField c = 1 ↔ c.fault = some (.cfg .arch)) ∧
    (faultField c = 2 ↔ c.fault = some (.cfg .conflict)) ∧
    (faultField c = 3 ↔ c.fault = some (.cfg .unavail)) ∧
    (faultField c = 4 ↔ c.fault = some .illegalCmd) ∧
    (faultField c = 5 ↔ c.fault = some .preDeadState) ∧
    (faultField c = 6 ↔ c.fault = some .preOddBlocks) ∧
    (faultField c = 7 ↔ c.fault = some .preExpandLen) ∧
    (faultField c = 8 ↔ c.fault = some .preFinishwLen) ∧
    (faultField c = 9 ↔ c.fault = some .memRange)) ∧
  ∀ (s : State) (k : Nat) (c : Context) (v : Word64) (rest : List HostAction), s.ctxs[k]? = some c →
    step { s with actions := .rd k 0x01 :: rest } =
      .next { s with actions := rest, replies := s.replies ++ [.register ((statusWord c).setWidth 64)] } ∧
    step { s with actions := .rd k 0x02 :: rest } =
      .next { s with actions := rest, replies := s.replies ++ [.register c.errInfo] } ∧
    (v.toNat < 2 ^ 32 → step { s with actions := .wr k 0x01 v :: rest } = .next { s with actions := rest }) ∧
    step { s with actions := .wr k 0x02 v :: rest } = .next { s with actions := rest }

/-- R36, R37, R38, R101: the bits of the global registers, and that `g: RD` of `CPUCAP`, `FEATSEL` and `BACKEND` hands
back the word of the unit's inputs and of what `BACKEND` holds and changes nothing. That a read of 0x40, 0x41 or 0x42
through a context does the same, and that a host write of one has no effect, is the model's reading (assumption 14). -/
def Obligations.GlobalRegistersHaveTheirBits : Prop :=
  (∀ i : SelInputs,
    (cpucapWord i).getLsbD 0 = i.archOk ∧ (cpucapWord i).getLsbD 1 = i.cpuAvx ∧
    (cpucapWord i).getLsbD 2 = i.cpuAvx2 ∧ (cpucapWord i).extractLsb' 3 29 = 0 ∧
    (featselWord i).getLsbD 0 = i.featAvx ∧ (featselWord i).getLsbD 1 = i.featAvx2 ∧
    (featselWord i).extractLsb' 2 30 = 0) ∧
  (backendWord .unselected = 0x00 ∧ backendWord .portable = 0x01 ∧ backendWord .avx = 0x02 ∧
    backendWord .avx2 = 0x03 ∧ backendWord (.failed .arch) = 0x17 ∧ backendWord (.failed .conflict) = 0x27 ∧
    backendWord (.failed .unavail) = 0x37) ∧
  ∀ (s : State) (rest : List HostAction),
    let reads (w : Word32) :=
      Host.Outcome.next { s with actions := rest, replies := s.replies ++ [.register (w.setWidth 64)] }
    step { s with actions := .rdGlobal .cpucap :: rest } = reads (cpucapWord s.inputs) ∧
    step { s with actions := .rdGlobal .featsel :: rest } = reads (featselWord s.inputs) ∧
    step { s with actions := .rdGlobal .backend :: rest } = reads (backendWord s.backend) ∧
    ∀ k, k < s.ctxs.length →
      step { s with actions := .rd k 0x40 :: rest } = reads (cpucapWord s.inputs) ∧
      step { s with actions := .rd k 0x41 :: rest } = reads (featselWord s.inputs) ∧
      step { s with actions := .rd k 0x42 :: rest } = reads (backendWord s.backend) ∧
      ∀ (n : Nat) (v : Word64), 0x40 ≤ n → n ≤ 0x42 →
        step { s with actions := .wr k n v :: rest } = .next { s with actions := rest }

/-- R81: a host memory write in range stores its bytes and changes nothing else; a host memory read in range hands
back the bytes and changes nothing. -/
def Obligations.HostMemoryActionsReadAndWriteMemory : Prop :=
  ∀ (s : State) (addr : Nat) (bytes : List Byte) (rest : List HostAction), Memory.wf s.mem →
    addr + bytes.length ≤ s.memSize →
    ∃ m, step { s with actions := .mw addr bytes :: .mr addr bytes.length :: rest } =
        .next { s with actions := .mr addr bytes.length :: rest, mem := m } ∧
      step { s with actions := .mr addr bytes.length :: rest, mem := m } =
        .next { s with actions := rest, mem := m, replies := s.replies ++ [.bytes bytes] } ∧
      ∀ a, a < addr ∨ addr + bytes.length ≤ a → readByte m a = readByte s.mem a

/-- R42: after reset, for every number of contexts, memory size, inputs and memory, every register of every context
reads 0, there is no hash state, and `BACKEND` is UNSELECTED; `CPUCAP`, `FEATSEL` and `Mem` are not reset's to choose:
the inputs and the memory are the given ones. -/
def Obligations.ResetLeavesEveryContextRegisterZero : Prop :=
  ∀ (nctx size k : Nat) (inputs : SelInputs) (mem : Memory), k < nctx →
    (∃ c, (State.afterReset nctx size inputs mem).ctxs[k]? = some c ∧ (∀ r, readRegister c r = 0) ∧
      c.hash = none ∧ c.fault = none ∧ c.res = .ok) ∧
    readGlobal (State.afterReset nctx size inputs mem) .backend = 0 ∧
    (State.afterReset nctx size inputs mem).inputs = inputs ∧
    (State.afterReset nctx size inputs mem).mem = mem

/-- R290: `RESET` puts every context and `BACKEND` in the reset state, leaves `Mem` untouched, and lets the inputs
differ; the host's pending actions and what it has read are its own. -/
def Obligations.ResetActionResetsTheUnit : Prop :=
  ∀ (s : State) (inputs : SelInputs) (rest : List HostAction), s.actions = .reset inputs :: rest →
    ∃ t, step s = .next t ∧ t.ctxs.length = s.ctxs.length ∧ (∀ c ∈ t.ctxs, c = Context.reset) ∧
      t.backend = .unselected ∧ t.inputs = inputs ∧ t.mem = s.mem ∧ t.memSize = s.memSize ∧
      t.actions = rest ∧ t.replies = s.replies

/-! ### Invariants -/

/-- The invariant holds after reset, for every admissible parameters and canonical memory, so in particular at
`State.reset` (R42, R6). -/
def Obligations.InvariantHoldsAfterReset : Prop :=
  Invariant State.reset ∧
  ∀ (nctx size : Nat) (inputs : SelInputs) (mem : Memory), 1 ≤ nctx → size ≤ 2 ^ 60 → Memory.wf mem →
    (∀ p ∈ mem, p.1 < size) → Invariant (State.afterReset nctx size inputs mem)

/-- Every step keeps the invariant: canonical memory inside `MEMSIZE` (R60), the parameters (R6), every live hash
state that of some absorbed blocks (R33), the memoised selection (R122), the record of every fault (R251). -/
def Obligations.EveryStepKeepsTheInvariant : Prop :=
  ∀ s t : State, Invariant s → step s = .next t → Invariant t

/-- R33 alone: whenever a hash state is live, `H` and `LEN` are those of some list of absorbed blocks; every step
keeps this. -/
def Obligations.LiveHashStatesStayReachable : Prop :=
  ∀ s t : State, hashesOk s → step s = .next t → hashesOk t

/-! ### The verification reference functions -/

/-- R231: the proof stream has length `76 + 64k`: the expanded identifier, the layer and the node big-endian, then
each parent expanded, in listed order. -/
def Obligations.ProofStreamHasItsLayout : Prop :=
  ∀ (rid : Bytes 32) (p : NodeProof),
    (proofStream rid p).length = 76 + 64 * p.parents.length ∧
    (proofStream rid p).take 64 = (expandBytes rid).data ∧
    ((proofStream rid p).drop 64).take 12 = (be32 p.layerIndex).data ++ (be64 p.node).data ∧
    ∀ i q, p.parents[i]? = some q → ((proofStream rid p).drop (76 + 64 * i)).take 64 = (expandBytes q).data

/-- R236, second half: for a fixed number of parents the proof stream determines the identifier, the layer, the
node and the parents. -/
def Obligations.ProofStreamIsInjective : Prop :=
  ∀ (rid rid' : Bytes 32) (p p' : NodeProof), p'.parents.length = p.parents.length →
    proofStream rid' p' = proofStream rid p → rid' = rid ∧ p' = p

/-- R232, R233, R234: the proof's key is `FrReduce` of the first 32 bytes of the standard digest of the proof stream,
and each `verify` returns the actual comparison, whatever `FrReduce` and `Encode` are (free values; that a node is a
byte string, of any length, is the model's choice: assumption 15). -/
def Obligations.VerifyReturnsTheComparison : Prop :=
  ∀ (p : NodeProof) (rid x : Bytes 32) (encoded decoded : List Byte),
    (∃ low : Bytes 32, low.data = (stdSha512 (proofStream rid p)).data.take 32 ∧ proofKey rid p = frReduce low) ∧
    (labelingVerify p rid x = true ↔ proofKey rid p = x) ∧
    (encodingVerify p rid encoded decoded = true ↔ encodeValue (proofKey rid p) decoded = encoded)
end

