-- ==== Sys2Proof/Laws/Memory.lean ====
section
/-! SUPPORT. The laws of the memory operations (20_memory.md rules R62, R63): a read after a write gives what was
written inside the range and what stood there before outside it, and every operation keeps the canonical form. -/

namespace Sys2Proof.Machine

/-- No entry of a canonical memory lies below its first. -/
theorem readByte_below {m : Memory} {a : Nat} (h : ∀ p ∈ m, a < p.1) : readByte m a = unwrittenByte := by
  induction m with
  | nil => rfl
  | cons p m ih =>
    obtain ⟨k, v⟩ := p
    have hk : a < k := h (k, v) (by simp)
    rw [readByte, if_neg (by omega)]
    exact ih fun q hq => h q (List.mem_cons_of_mem _ hq)

theorem putByte_mem {a : Nat} {b : Byte} {m : Memory} {p : Host.Cell} (h : p ∈ putByte a b m) :
    (p = (a, b) ∧ b ≠ unwrittenByte) ∨ p ∈ m := by
  unfold putByte at h
  split at h
  · exact .inr h
  · rcases List.mem_cons.mp h with h | h
    · exact .inl ⟨h, by assumption⟩
    · exact .inr h

/-- Every entry after a write is the written one or an old one. -/
theorem writeByte_mem {m : Memory} {a : Nat} {b : Byte} {p : Host.Cell} (h : p ∈ writeByte m a b) :
    (p = (a, b) ∧ b ≠ unwrittenByte) ∨ p ∈ m := by
  induction m with
  | nil => exact (putByte_mem h)
  | cons q m ih =>
    obtain ⟨k, v⟩ := q
    unfold writeByte at h
    split at h
    · exact putByte_mem h
    · split at h
      · exact (putByte_mem h).imp_right (List.mem_cons_of_mem _)
      · rcases List.mem_cons.mp h with h | h
        · exact .inr (h ▸ List.mem_cons_self)
        · exact (ih h).imp_right (List.mem_cons_of_mem _)

theorem putByte_wf {a : Nat} {b : Byte} {m : Memory} (hm : Memory.wf m) (ha : ∀ p ∈ m, a < p.1) :
    Memory.wf (putByte a b m) := by
  unfold putByte
  split
  · exact hm
  · rename_i hb
    refine ⟨List.pairwise_cons.mpr ⟨ha, hm.1⟩, fun p hp => ?_⟩
    rcases List.mem_cons.mp hp with rfl | hp
    · exact hb
    · exact hm.2 p hp

theorem wf_tail {p : Host.Cell} {m : Memory} (h : Memory.wf (p :: m)) :
    Memory.wf m ∧ ∀ q ∈ m, p.1 < q.1 :=
  ⟨⟨(List.pairwise_cons.mp h.1).2, fun q hq => h.2 q (List.mem_cons_of_mem _ hq)⟩,
    (List.pairwise_cons.mp h.1).1⟩

/-- A write of one byte keeps the canonical form. -/
theorem writeByte_wf {m : Memory} (h : Memory.wf m) (a : Nat) (b : Byte) : Memory.wf (writeByte m a b) := by
  induction m with
  | nil => exact putByte_wf h (by simp)
  | cons p m ih =>
    obtain ⟨k, v⟩ := p
    obtain ⟨hm, hk⟩ := wf_tail h
    unfold writeByte
    split
    · rename_i hlt
      refine putByte_wf h fun q hq => ?_
      rcases List.mem_cons.mp hq with rfl | hq
      · exact hlt
      · exact Nat.lt_trans hlt (hk q hq)
    · split
      · rename_i heq
        subst heq
        exact putByte_wf hm hk
      · rename_i h1 h2
        refine ⟨List.pairwise_cons.mpr ⟨fun q hq => ?_, (ih hm).1⟩, fun q hq => ?_⟩
        · rcases writeByte_mem hq with ⟨rfl, -⟩ | hq
          · exact show k < a by omega
          · exact hk q hq
        · rcases List.mem_cons.mp hq with rfl | hq
          · exact h.2 (k, v) List.mem_cons_self
          · exact (ih hm).2 q hq

/-- A write of a byte string keeps the canonical form. -/
theorem memWrite_wf {m : Memory} (h : Memory.wf m) (a : Nat) (s : List Byte) : Memory.wf (memWrite m a s) := by
  induction s generalizing m a with
  | nil => exact h
  | cons b s ih => exact ih (writeByte_wf h a b) (a + 1)

/-- A write inside the memory lists no address outside it. -/
theorem memWrite_bound {m : Memory} {size a : Nat} {s : List Byte} (h : ∀ p ∈ m, p.1 < size)
    (hs : a + s.length ≤ size) : ∀ p ∈ memWrite m a s, p.1 < size := by
  induction s generalizing m a with
  | nil => exact h
  | cons b s ih =>
    rw [List.length_cons] at hs
    refine ih (fun p hp => ?_) (by omega)
    rcases writeByte_mem hp with ⟨rfl, -⟩ | hp
    · exact show a < size by omega
    · exact h p hp

theorem readByte_putByte_self {m : Memory} {a : Nat} (b : Byte) (h : ∀ p ∈ m, a < p.1) :
    readByte (putByte a b m) a = b := by
  unfold putByte
  split
  · rename_i hb
    rw [readByte_below h, hb]
  · simp [readByte]

theorem readByte_putByte_ne (m : Memory) {a x : Nat} (b : Byte) (h : x ≠ a) :
    readByte (putByte a b m) x = readByte m x := by
  unfold putByte
  split
  · rfl
  · rw [readByte, if_neg (Ne.symm h)]

/-- A read of the byte just written. -/
theorem readByte_writeByte_self {m : Memory} (h : Memory.wf m) (a : Nat) (b : Byte) :
    readByte (writeByte m a b) a = b := by
  induction m with
  | nil => exact readByte_putByte_self b (by simp)
  | cons p m ih =>
    obtain ⟨k, v⟩ := p
    obtain ⟨hm, hk⟩ := wf_tail h
    unfold writeByte
    split
    · rename_i hlt
      refine readByte_putByte_self b fun q hq => ?_
      rcases List.mem_cons.mp hq with rfl | hq
      · exact hlt
      · exact Nat.lt_trans hlt (hk q hq)
    · split
      · rename_i heq
        subst heq
        exact readByte_putByte_self b hk
      · rename_i h1 h2
        rw [readByte, if_neg (Ne.symm h2)]
        exact ih hm

/-- A write of one byte leaves every other byte alone. -/
theorem readByte_writeByte_ne (m : Memory) {a x : Nat} (b : Byte) (h : x ≠ a) :
    readByte (writeByte m a b) x = readByte m x := by
  induction m with
  | nil => exact readByte_putByte_ne [] b h
  | cons p m ih =>
    obtain ⟨k, v⟩ := p
    unfold writeByte
    split
    · exact readByte_putByte_ne _ b h
    · split
      · rename_i heq
        subst heq
        rw [readByte_putByte_ne m b h, readByte, if_neg (Ne.symm h)]
      · rw [readByte, readByte, ih]

/-- A write of a byte string leaves every byte outside its range alone (R63). -/
theorem readByte_memWrite_outside (m : Memory) (a : Nat) (s : List Byte) {x : Nat}
    (h : x < a ∨ a + s.length ≤ x) : readByte (memWrite m a s) x = readByte m x := by
  induction s generalizing m a with
  | nil => rfl
  | cons b s ih =>
    rw [List.length_cons] at h
    rw [memWrite, ih _ (a + 1) (by omega), readByte_writeByte_ne m b (by omega)]

/-- A read of a byte just written by a string (R63). -/
theorem readByte_memWrite_inside {m : Memory} (h : Memory.wf m) (a : Nat) (s : List Byte) {i : Nat}
    (hi : i < s.length) : readByte (memWrite m a s) (a + i) = s[i] := by
  induction s generalizing m a i with
  | nil => exact absurd hi (by simp)
  | cons b s ih =>
    rw [memWrite]
    cases i with
    | zero =>
      rw [readByte_memWrite_outside _ _ _ (by omega), Nat.add_zero, readByte_writeByte_self h]
      rfl
    | succ i =>
      have := ih (writeByte_wf h a b) (a + 1) (i := i) (by simpa using hi)
      rw [show a + 1 + i = a + (i + 1) by omega] at this
      simpa using this

theorem readList_getElem (m : Memory) (a n i : Nat) (h : i < (readList m a n).length) :
    (readList m a n)[i] = readByte m (a + i) := by
  induction n generalizing a i with
  | zero => exact absurd h (by simp [readList])
  | succ n ih =>
    cases i with
    | zero => rfl
    | succ i =>
      have := ih (a + 1) i (by simpa [readList] using h)
      rw [show a + 1 + i = a + (i + 1) by omega] at this
      simpa [readList] using this

/-- A read of the whole byte string just written (R62, R63). -/
theorem readList_memWrite {m : Memory} (h : Memory.wf m) (a : Nat) (s : List Byte) :
    readList (memWrite m a s) a s.length = s := by
  refine List.ext_getElem (readList_length _ _ _) fun i h1 h2 => ?_
  rw [readList_getElem, readByte_memWrite_inside h a s h2]

/-- Two memories that read alike over a range give the same byte string. -/
theorem readList_congr {m m' : Memory} {a n : Nat} (h : ∀ x, a ≤ x → x < a + n → readByte m x = readByte m' x) :
    readList m a n = readList m' a n := by
  refine List.ext_getElem (by rw [readList_length, readList_length]) fun i h1 h2 => ?_
  rw [readList_getElem, readList_getElem]
  exact h _ (by omega) (by rw [readList_length] at h1; omega)

theorem readPairs_length (m : Memory) (a n : Nat) : (readPairs m a n).length = n := by
  induction n generalizing a with
  | zero => rfl
  | succ n ih => simp [readPairs, ih]

end Sys2Proof.Machine
end

