-- ==== Sys2Proof/Laws/State.lean ====
section
/-! SUPPORT. One lemma per field per update of the state, so that no proof unfolds a record update. -/

namespace Sys2Proof.Machine

variable (s : State)

@[simp] theorem setContextAt_ctxs (k : Nat) (c : Context) : (s.setContextAt k c).ctxs = s.ctxs.set k c := rfl
@[simp] theorem setContextAt_backend (k : Nat) (c : Context) : (s.setContextAt k c).backend = s.backend := rfl
@[simp] theorem setContextAt_inputs (k : Nat) (c : Context) : (s.setContextAt k c).inputs = s.inputs := rfl
@[simp] theorem setContextAt_memSize (k : Nat) (c : Context) : (s.setContextAt k c).memSize = s.memSize := rfl
@[simp] theorem setContextAt_mem (k : Nat) (c : Context) : (s.setContextAt k c).mem = s.mem := rfl
@[simp] theorem setContextAt_current (k : Nat) (c : Context) : (s.setContextAt k c).current = s.current := rfl
@[simp] theorem setContextAt_actions (k : Nat) (c : Context) : (s.setContextAt k c).actions = s.actions := rfl
@[simp] theorem setContextAt_replies (k : Nat) (c : Context) : (s.setContextAt k c).replies = s.replies := rfl
@[simp] theorem setContextAt_answers (k : Nat) (c : Context) : (s.setContextAt k c).answers = s.answers := rfl
@[simp] theorem setContextAt_tick (k : Nat) (c : Context) : (s.setContextAt k c).tick = s.tick := rfl

@[simp] theorem setContext_ctxs (c : Context) : (s.setContext c).ctxs = s.ctxs.set s.current c := rfl
@[simp] theorem setContext_backend (c : Context) : (s.setContext c).backend = s.backend := rfl
@[simp] theorem setContext_inputs (c : Context) : (s.setContext c).inputs = s.inputs := rfl
@[simp] theorem setContext_memSize (c : Context) : (s.setContext c).memSize = s.memSize := rfl
@[simp] theorem setContext_mem (c : Context) : (s.setContext c).mem = s.mem := rfl
@[simp] theorem setContext_current (c : Context) : (s.setContext c).current = s.current := rfl
@[simp] theorem setContext_actions (c : Context) : (s.setContext c).actions = s.actions := rfl
@[simp] theorem setContext_replies (c : Context) : (s.setContext c).replies = s.replies := rfl
@[simp] theorem setContext_answers (c : Context) : (s.setContext c).answers = s.answers := rfl
@[simp] theorem setContext_tick (c : Context) : (s.setContext c).tick = s.tick := rfl

@[simp] theorem setMem_ctxs (m : Memory) : (s.setMem m).ctxs = s.ctxs := rfl
@[simp] theorem setMem_backend (m : Memory) : (s.setMem m).backend = s.backend := rfl
@[simp] theorem setMem_inputs (m : Memory) : (s.setMem m).inputs = s.inputs := rfl
@[simp] theorem setMem_memSize (m : Memory) : (s.setMem m).memSize = s.memSize := rfl
@[simp] theorem setMem_mem (m : Memory) : (s.setMem m).mem = m := rfl
@[simp] theorem setMem_current (m : Memory) : (s.setMem m).current = s.current := rfl
@[simp] theorem setMem_actions (m : Memory) : (s.setMem m).actions = s.actions := rfl
@[simp] theorem setMem_replies (m : Memory) : (s.setMem m).replies = s.replies := rfl
@[simp] theorem setMem_answers (m : Memory) : (s.setMem m).answers = s.answers := rfl
@[simp] theorem setMem_tick (m : Memory) : (s.setMem m).tick = s.tick := rfl

@[simp] theorem reply_ctxs (r : Reply) : (s.reply r).ctxs = s.ctxs := rfl
@[simp] theorem reply_backend (r : Reply) : (s.reply r).backend = s.backend := rfl
@[simp] theorem reply_inputs (r : Reply) : (s.reply r).inputs = s.inputs := rfl
@[simp] theorem reply_memSize (r : Reply) : (s.reply r).memSize = s.memSize := rfl
@[simp] theorem reply_mem (r : Reply) : (s.reply r).mem = s.mem := rfl
@[simp] theorem reply_current (r : Reply) : (s.reply r).current = s.current := rfl
@[simp] theorem reply_actions (r : Reply) : (s.reply r).actions = s.actions := rfl
@[simp] theorem reply_replies (r : Reply) : (s.reply r).replies = s.replies ++ [r] := rfl
@[simp] theorem reply_answers (r : Reply) : (s.reply r).answers = s.answers := rfl
@[simp] theorem reply_tick (r : Reply) : (s.reply r).tick = s.tick := rfl

@[simp] theorem consulted_ctxs : s.consulted.ctxs = s.ctxs := rfl
@[simp] theorem consulted_backend : s.consulted.backend = s.backend := rfl
@[simp] theorem consulted_inputs : s.consulted.inputs = s.inputs := rfl
@[simp] theorem consulted_memSize : s.consulted.memSize = s.memSize := rfl
@[simp] theorem consulted_mem : s.consulted.mem = s.mem := rfl
@[simp] theorem consulted_current : s.consulted.current = s.current := rfl
@[simp] theorem consulted_actions : s.consulted.actions = s.actions := rfl
@[simp] theorem consulted_replies : s.consulted.replies = s.replies := rfl
@[simp] theorem consulted_answers : s.consulted.answers = s.answers.tail := rfl
@[simp] theorem consulted_tick : s.consulted.tick = s.tick + 1 := rfl

@[simp] theorem ensureBackend_ctxs : (ensureBackend s).ctxs = s.ctxs := rfl
@[simp] theorem ensureBackend_backend : (ensureBackend s).backend = ensuredBackend s := rfl
@[simp] theorem ensureBackend_inputs : (ensureBackend s).inputs = s.inputs := rfl
@[simp] theorem ensureBackend_memSize : (ensureBackend s).memSize = s.memSize := rfl
@[simp] theorem ensureBackend_mem : (ensureBackend s).mem = s.mem := rfl
@[simp] theorem ensureBackend_current : (ensureBackend s).current = s.current := rfl
@[simp] theorem ensureBackend_actions : (ensureBackend s).actions = s.actions := rfl
@[simp] theorem ensureBackend_replies : (ensureBackend s).replies = s.replies := rfl
@[simp] theorem ensureBackend_answers : (ensureBackend s).answers = s.answers := rfl
@[simp] theorem ensureBackend_tick : (ensureBackend s).tick = s.tick := rfl

@[simp] theorem enterFault_ctxs (c : Context) (f : FaultCause) (info : Word64) : (enterFault s c f info).ctxs = s.ctxs.set s.current { c with fault := some f, errInfo := info } := rfl
@[simp] theorem enterFault_backend (c : Context) (f : FaultCause) (info : Word64) : (enterFault s c f info).backend = s.backend := rfl
@[simp] theorem enterFault_inputs (c : Context) (f : FaultCause) (info : Word64) : (enterFault s c f info).inputs = s.inputs := rfl
@[simp] theorem enterFault_memSize (c : Context) (f : FaultCause) (info : Word64) : (enterFault s c f info).memSize = s.memSize := rfl
@[simp] theorem enterFault_mem (c : Context) (f : FaultCause) (info : Word64) : (enterFault s c f info).mem = s.mem := rfl
@[simp] theorem enterFault_current (c : Context) (f : FaultCause) (info : Word64) : (enterFault s c f info).current = s.current := rfl
@[simp] theorem enterFault_actions (c : Context) (f : FaultCause) (info : Word64) : (enterFault s c f info).actions = s.actions := rfl
@[simp] theorem enterFault_replies (c : Context) (f : FaultCause) (info : Word64) : (enterFault s c f info).replies = s.replies := rfl
@[simp] theorem enterFault_answers (c : Context) (f : FaultCause) (info : Word64) : (enterFault s c f info).answers = s.answers := rfl
@[simp] theorem enterFault_tick (c : Context) (f : FaultCause) (info : Word64) : (enterFault s c f info).tick = s.tick := rfl

@[simp] theorem complete_ctxs (c : Context) : (complete s c).ctxs = s.ctxs.set s.current { c with res := .ok } := rfl
@[simp] theorem complete_backend (c : Context) : (complete s c).backend = s.backend := rfl
@[simp] theorem complete_inputs (c : Context) : (complete s c).inputs = s.inputs := rfl
@[simp] theorem complete_memSize (c : Context) : (complete s c).memSize = s.memSize := rfl
@[simp] theorem complete_mem (c : Context) : (complete s c).mem = s.mem := rfl
@[simp] theorem complete_current (c : Context) : (complete s c).current = s.current := rfl
@[simp] theorem complete_actions (c : Context) : (complete s c).actions = s.actions := rfl
@[simp] theorem complete_replies (c : Context) : (complete s c).replies = s.replies := rfl
@[simp] theorem complete_answers (c : Context) : (complete s c).answers = s.answers := rfl
@[simp] theorem complete_tick (c : Context) : (complete s c).tick = s.tick := rfl

@[simp] theorem completeStore_ctxs (c : Context) (a : Nat) (b : List Byte) : (completeStore s c a b).ctxs = s.ctxs.set s.current { c with res := .ok } := rfl
@[simp] theorem completeStore_backend (c : Context) (a : Nat) (b : List Byte) : (completeStore s c a b).backend = s.backend := rfl
@[simp] theorem completeStore_inputs (c : Context) (a : Nat) (b : List Byte) : (completeStore s c a b).inputs = s.inputs := rfl
@[simp] theorem completeStore_memSize (c : Context) (a : Nat) (b : List Byte) : (completeStore s c a b).memSize = s.memSize := rfl
@[simp] theorem completeStore_mem (c : Context) (a : Nat) (b : List Byte) : (completeStore s c a b).mem = memWrite s.mem a b := rfl
@[simp] theorem completeStore_current (c : Context) (a : Nat) (b : List Byte) : (completeStore s c a b).current = s.current := rfl
@[simp] theorem completeStore_actions (c : Context) (a : Nat) (b : List Byte) : (completeStore s c a b).actions = s.actions := rfl
@[simp] theorem completeStore_replies (c : Context) (a : Nat) (b : List Byte) : (completeStore s c a b).replies = s.replies := rfl
@[simp] theorem completeStore_answers (c : Context) (a : Nat) (b : List Byte) : (completeStore s c a b).answers = s.answers := rfl
@[simp] theorem completeStore_tick (c : Context) (a : Nat) (b : List Byte) : (completeStore s c a b).tick = s.tick := rfl

@[simp] theorem collaboratorError_ctxs (c : Context) (e : Word64) : (collaboratorError s c e).ctxs = s.ctxs.set s.current { c with res := .collabErr, errInfo := e } := by
  simp [collaboratorError]
@[simp] theorem collaboratorError_backend (c : Context) (e : Word64) : (collaboratorError s c e).backend = s.backend := by
  simp [collaboratorError]
@[simp] theorem collaboratorError_inputs (c : Context) (e : Word64) : (collaboratorError s c e).inputs = s.inputs := by
  simp [collaboratorError]
@[simp] theorem collaboratorError_memSize (c : Context) (e : Word64) : (collaboratorError s c e).memSize = s.memSize := by
  simp [collaboratorError]
@[simp] theorem collaboratorError_mem (c : Context) (e : Word64) : (collaboratorError s c e).mem = memWrite s.mem (slotAddr c) (unspecifiedSlot s.tick).data := by
  simp [collaboratorError]
@[simp] theorem collaboratorError_current (c : Context) (e : Word64) : (collaboratorError s c e).current = s.current := by
  simp [collaboratorError]
@[simp] theorem collaboratorError_actions (c : Context) (e : Word64) : (collaboratorError s c e).actions = s.actions := by
  simp [collaboratorError]
@[simp] theorem collaboratorError_replies (c : Context) (e : Word64) : (collaboratorError s c e).replies = s.replies := by
  simp [collaboratorError]
@[simp] theorem collaboratorError_answers (c : Context) (e : Word64) : (collaboratorError s c e).answers = s.answers := by
  simp [collaboratorError]
@[simp] theorem collaboratorError_tick (c : Context) (e : Word64) : (collaboratorError s c e).tick = s.tick := by
  simp [collaboratorError]

@[simp] theorem resetUnit_ctxs (i : SelInputs) : (resetUnit s i).ctxs = List.replicate s.ctxs.length Context.reset := rfl
@[simp] theorem resetUnit_backend (i : SelInputs) : (resetUnit s i).backend = .unselected := rfl
@[simp] theorem resetUnit_inputs (i : SelInputs) : (resetUnit s i).inputs = i := rfl
@[simp] theorem resetUnit_memSize (i : SelInputs) : (resetUnit s i).memSize = s.memSize := rfl
@[simp] theorem resetUnit_mem (i : SelInputs) : (resetUnit s i).mem = s.mem := rfl
@[simp] theorem resetUnit_current (i : SelInputs) : (resetUnit s i).current = 0 := rfl
@[simp] theorem resetUnit_actions (i : SelInputs) : (resetUnit s i).actions = s.actions := rfl
@[simp] theorem resetUnit_replies (i : SelInputs) : (resetUnit s i).replies = s.replies := rfl
@[simp] theorem resetUnit_answers (i : SelInputs) : (resetUnit s i).answers = s.answers := rfl
@[simp] theorem resetUnit_tick (i : SelInputs) : (resetUnit s i).tick = s.tick := rfl

/-- Fault entry as one record update (R252). -/
theorem enterFault_eq (c : Context) (f : FaultCause) (info : Word64) : enterFault s c f info =
    { s with ctxs := s.ctxs.set s.current { c with fault := some f, errInfo := info } } := rfl

/-- Normal completion as one record update. -/
theorem complete_eq (c : Context) : complete s c =
    { s with ctxs := s.ctxs.set s.current { c with res := .ok } } := rfl

/-- Completion with a store as one record update. -/
theorem completeStore_eq (c : Context) (a : Nat) (b : List Byte) : completeStore s c a b =
    { s with mem := memWrite s.mem a b, ctxs := s.ctxs.set s.current { c with res := .ok } } := rfl

/-- A consultation as one record update. -/
theorem consulted_eq : s.consulted = { s with answers := s.answers.tail, tick := s.tick + 1 } := rfl

/-- A collaborator error as one record update (R208). -/
theorem collaboratorError_eq (c : Context) (e : Word64) : collaboratorError s c e =
    { s with
      mem := memWrite s.mem (slotAddr c) (unspecifiedSlot s.tick).data
      ctxs := s.ctxs.set s.current { c with res := .collabErr, errInfo := e } } := by
  simp only [collaboratorError, State.setMem, State.setContext, State.setContextAt]

@[simp] theorem setMem_context? (m : Memory) : (s.setMem m).context? = s.context? := rfl
@[simp] theorem ensureBackend_context? : (ensureBackend s).context? = s.context? := rfl
@[simp] theorem consulted_context? : s.consulted.context? = s.context? := rfl
@[simp] theorem ensureBackend_inRange (a n : Nat) : (ensureBackend s).inRange a n = s.inRange a n := rfl

/-- The executing context is one of the contexts. -/
theorem context?_mem {s : State} {c : Context} (h : s.context? = some c) : c ∈ s.ctxs :=
  List.mem_of_getElem? h

/-- The executing context after it is replaced. -/
theorem setContext_context? {s : State} {c : Context} (h : s.context? = some c) (d : Context) :
    (s.setContext d).context? = some d := by
  obtain ⟨hlt, -⟩ := List.getElem?_eq_some_iff.mp h
  exact List.getElem?_set_self hlt

/-- The other contexts after the executing one is replaced. -/
theorem setContext_other (s : State) (d : Context) {j : Nat} (h : j ≠ s.current) :
    (s.setContext d).ctxs[j]? = s.ctxs[j]? :=
  List.getElem?_set_ne (Ne.symm h)

/-- A property of every context survives the replacement of one by a context that has it. -/
theorem forall_set {P : Context → Prop} {l : List Context} (h : ∀ c ∈ l, P c) (k : Nat) {d : Context}
    (hd : P d) : ∀ c ∈ l.set k d, P c := by
  intro c hc
  rcases List.mem_or_eq_of_mem_set hc with hc | rfl
  · exact h c hc
  · exact hd

end Sys2Proof.Machine
end

