-- ==== Sys2Proof/Laws/Commands.lean ====
section
/-! SUPPORT. What a command can do, said once: the order of events (30_encoding.md rule R104) by cases, each
command's body by cases, and each host action by cases. Proofs cite these and unfold no meaning. -/

namespace Sys2Proof.Machine

/-- The part of each meaning after `EnsureBackend`. -/
def bodyOf : Instr → Context → State → State
  | .bsel => bselBody
  | .hnew => hnewBody
  | .hinput => hinputBody
  | .hfinish => hfinishBody
  | .hfinishw => hfinishwBody
  | .expand => expandBody
  | .clabel => deriveLabel .plain
  | .clabelx => deriveLabel .exp

theorem exec_eq (i : Instr) (s : State) : exec i s = runCommand s (bodyOf i) := by
  cases i <;> rfl

/-- A ready context gets to its body. -/
theorem runCommand_ready {s : State} {c : Context} (h : Ready s c) (body : Context → State → State) :
    runCommand s body = .next (body c (ensureBackend s)) := by
  obtain ⟨hc, hf, he⟩ := h
  simp [runCommand, hc, hf, he]

/-- A faulted context does nothing (R253). -/
theorem runCommand_faulted {s : State} {c : Context} (hc : s.context? = some c) (hf : c.fault ≠ none)
    (body : Context → State → State) : runCommand s body = .next s := by
  simp [runCommand, hc, Option.isSome_iff_ne_none, hf]

/-- A failed selection faults the context (R122, R254). -/
theorem runCommand_config {s : State} {c : Context} {e : CfgError} (hc : s.context? = some c)
    (hf : c.fault = none) (he : (ensuredBackend s).error? = some e) (body : Context → State → State) :
    runCommand s body = .next (enterFault (ensureBackend s) c (.cfg e) 0) := by
  simp [runCommand, hc, hf, he]

theorem exec_ready {s : State} {c : Context} (h : Ready s c) (i : Instr) :
    exec i s = .next (bodyOf i c (ensureBackend s)) := by
  rw [exec_eq, runCommand_ready h]

/-- Everything a command can do when it answers a next state (R104). -/
theorem exec_cases {i : Instr} {s t : State} (h : exec i s = .next t) :
    ∃ c, s.context? = some c ∧
      ((c.fault ≠ none ∧ t = s) ∨
        (c.fault = none ∧ ∃ e, (ensuredBackend s).error? = some e ∧
          t = enterFault (ensureBackend s) c (.cfg e) 0) ∨
        (Ready s c ∧ t = bodyOf i c (ensureBackend s))) := by
  rw [exec_eq] at h
  cases hc : s.context? with
  | none => simp [runCommand, hc] at h
  | some c =>
    refine ⟨c, rfl, ?_⟩
    by_cases hf : c.fault = none
    · cases he : (ensuredBackend s).error? with
      | none =>
        have hr : Ready s c := ⟨hc, hf, he⟩
        rw [runCommand_ready hr] at h
        exact .inr (.inr ⟨hr, (Host.Outcome.next.inj h).symm⟩)
      | some e =>
        rw [runCommand_config hc hf he] at h
        exact .inr (.inl ⟨hf, e, rfl, (Host.Outcome.next.inj h).symm⟩)
    · rw [runCommand_faulted hc hf] at h
      exact .inl ⟨hf, (Host.Outcome.next.inj h).symm⟩

/-- What an illegal word can do (R97, R253). -/
theorem runIllegal_cases {s t : State} {w : Word32} (h : runIllegal s w = .next t) :
    ∃ c, s.context? = some c ∧
      ((c.fault ≠ none ∧ t = s) ∨
        (c.fault = none ∧ t = enterFault s c .illegalCmd (w.setWidth 64))) := by
  cases hc : s.context? with
  | none => simp [runIllegal, hc] at h
  | some c =>
    refine ⟨c, rfl, ?_⟩
    by_cases hf : c.fault = none
    · simp only [runIllegal, hc, hf] at h
      exact .inr ⟨hf, (Host.Outcome.next.inj h).symm⟩
    · simp only [runIllegal, hc, Option.isSome_iff_ne_none, ne_eq, hf, not_false_eq_true, if_true] at h
      exact .inl ⟨hf, (Host.Outcome.next.inj h).symm⟩

/-- Everything the body of a command can do in context `c`. -/
inductive BodyOutcome (i : Instr) (c : Context) (s : State) : State → Prop where
  /-- It raises a fault of its own, with the record of R251. -/
  | fault (f : FaultCause) (info : Word64)
      (record : ∀ b, faultRecordOk b { c with fault := some f, errInfo := info }) :
      BodyOutcome i c s (enterFault s c f info)
  /-- It completes without a store; the hash state is kept, made fresh, or has absorbed blocks. -/
  | quiet (h : Option HashState) (noStore : storeRange i c = none)
      (hash : h = c.hash ∨ h = some hashNew ∨
        ∃ hs blocks, c.hash = some hs ∧ h = some (hashInput hs blocks)) :
      BodyOutcome i c s (complete s { c with hash := h })
  /-- It completes with a store inside the memory; the hash state is kept or consumed. -/
  | store (h : Option HashState) (addr : Nat) (bytes : List Byte)
      (range : storeRange i c = some (addr, bytes.length)) (fits : addr + bytes.length ≤ s.memSize)
      (hash : h = c.hash ∨ h = none) :
      BodyOutcome i c s (completeStore s { c with hash := h } addr bytes)
  /-- A label command completes after one consultation of the oracle. -/
  | labelled (bytes : List Byte) (range : storeRange i c = some (slotAddr c, bytes.length))
      (fits : slotAddr c + bytes.length ≤ s.memSize) :
      BodyOutcome i c s (completeStore s c (slotAddr c) bytes).consulted
  /-- A label command completes with a collaborator error. -/
  | collab (e : Word64) (range : storeRange i c = some (slotAddr c, 32)) (fits : slotAddr c + 32 ≤ s.memSize) :
      BodyOutcome i c s (collaboratorError s c e).consulted

theorem inRange_iff {s : State} {a n : Nat} : s.inRange a n = true ↔ a + n ≤ s.memSize := by
  simp [State.inRange]

theorem hinputBody_outcome (c : Context) (s : State) : BodyOutcome .hinput c s (hinputBody c s) := by
  unfold hinputBody
  split
  · rename_i h
    exact .fault _ _ fun b => ⟨rfl, h⟩
  · rename_i hs h
    split
    · rename_i ho
      exact .fault _ _ fun b => ⟨ho, by simp [h]⟩
    · split
      · exact .fault _ _ fun b => trivial
      · exact .quiet _ rfl (.inr (.inr ⟨hs, _, h, rfl⟩))

theorem hfinishBody_outcome (c : Context) (s : State) : BodyOutcome .hfinish c s (hfinishBody c s) := by
  unfold hfinishBody
  split
  · rename_i h
    exact .fault _ _ fun b => ⟨rfl, h⟩
  · rename_i hs h
    split
    · exact .fault _ _ fun b => trivial
    · rename_i hr
      refine .store none _ _ ?_ ?_ (.inr rfl)
      · rw [(hashFinish hs).size]; rfl
      · rw [(hashFinish hs).size]; simpa [State.inRange] using hr

theorem hfinishwBody_outcome (c : Context) (s : State) : BodyOutcome .hfinishw c s (hfinishwBody c s) := by
  unfold hfinishwBody
  split
  · rename_i h
    exact .fault _ _ fun b => ⟨rfl, h⟩
  · rename_i hs h
    split
    · rename_i ho
      exact .fault _ _ fun b => ⟨ho, by simp [h]⟩
    · split
      · exact .fault _ _ fun b => trivial
      · split
        · exact .fault _ _ fun b => trivial
        · rename_i hr
          refine .store none _ _ ?_ ?_ (.inr rfl)
          · rw [Bytes.size]; rfl
          · rw [Bytes.size]; simpa [State.inRange] using hr

theorem expandBody_outcome (c : Context) (s : State) : BodyOutcome .expand c s (expandBody c s) := by
  unfold expandBody
  split
  · rename_i ho
    exact .fault _ _ fun b => ho
  · split
    · exact .fault _ _ fun b => trivial
    · split
      · exact .fault _ _ fun b => trivial
      · rename_i hr
        refine .store c.hash _ _ ?_ ?_ (.inl rfl)
        · rw [Bytes.size]; rfl
        · rw [Bytes.size]; simpa [State.inRange] using hr

theorem deriveLabel_outcome {i : Instr} (v : OracleVariant) (c : Context) (s : State)
    (hi : storeRange i c = some (slotAddr c, 32)) : BodyOutcome i c s (deriveLabel v c s) := by
  unfold deriveLabel
  split
  · exact .fault _ _ fun b => trivial
  · split
    · exact .fault _ _ fun b => trivial
    · rename_i hr
      have hr : slotAddr c + 32 ≤ s.memSize := by simpa [State.inRange] using hr
      dsimp only
      split
      · exact .store c.hash _ _ (by rw [Bytes.size]; exact hi) (by rw [Bytes.size]; exact hr) (.inl rfl)
      · split
        · exact .collab _ hi hr
        · exact .labelled _ (by rw [Bytes.size]; exact hi) (by rw [Bytes.size]; exact hr)

/-- Every body does one of the five things. -/
theorem bodyOf_outcome (i : Instr) (c : Context) (s : State) : BodyOutcome i c s (bodyOf i c s) := by
  cases i with
  | bsel => exact .quiet c.hash rfl (.inl rfl)
  | hnew => exact .quiet _ rfl (.inr (.inl rfl))
  | hinput => exact hinputBody_outcome c s
  | hfinish => exact hfinishBody_outcome c s
  | hfinishw => exact hfinishwBody_outcome c s
  | expand => exact expandBody_outcome c s
  | clabel => exact deriveLabel_outcome _ c s rfl
  | clabelx => exact deriveLabel_outcome _ c s rfl

/-- Everything a host action can do when it answers a next state: it issues a command or an illegal word, or it
does what its rule says and nothing else. -/
theorem perform_cases {a : HostAction} {s t : State} (h : perform exec a s = .next t) :
    (∃ k i, exec i { s with current := k } = .next t) ∨
      (∃ k w, decode w = .illegal w ∧ runIllegal { s with current := k } w = .next t) ∨
      (∃ k c r v, s.ctxs[k]? = some c ∧ t = s.setContextAt k (writeRegister c r v)) ∨
      t = s ∨ (∃ r, t = s.reply r) ∨
      (∃ addr bytes, addr + bytes.length ≤ s.memSize ∧ t = s.setMem (memWrite s.mem addr bytes)) ∨
      (∃ inputs, a = .reset inputs ∧ t = resetUnit s inputs) := by
  have hissue : ∀ k w, issue exec k w s = .next t →
      (∃ k i, exec i { s with current := k } = .next t) ∨
        (∃ k w, decode w = .illegal w ∧ runIllegal { s with current := k } w = .next t) := by
    intro k w h
    unfold issue at h
    split at h
    · exact .inl ⟨k, _, h⟩
    · rename_i w' hw
      have : w' = w := by
        unfold decode at hw
        split at hw
        · cases hw
        · exact (Decoded.illegal.inj hw).symm
      subst this
      exact .inr ⟨k, _, hw, h⟩
  cases a with
  | cmd k w =>
    rcases hissue k w h with h | h
    · exact .inl h
    · exact .inr (.inl h)
  | wr k n v =>
    simp only [perform, hostWrite] at h
    split at h
    · cases h
    · rename_i c hc
      split at h
      · rename_i r hr
        split at h
        · split at h
          · rcases hissue _ _ h with h | h
            · exact .inl h
            · exact .inr (.inl h)
          · exact .inr (.inr (.inl ⟨k, c, r, v, hc, (Host.Outcome.next.inj h).symm⟩))
        · cases h
      · exact .inr (.inr (.inr (.inl (Host.Outcome.next.inj h).symm)))
      · exact .inr (.inr (.inr (.inl (Host.Outcome.next.inj h).symm)))
  | rd k n =>
    simp only [perform, hostRead] at h
    split at h
    · cases h
    · split at h <;> exact .inr (.inr (.inr (.inr (.inl ⟨_, (Host.Outcome.next.inj h).symm⟩))))
  | rdGlobal g => exact .inr (.inr (.inr (.inr (.inl ⟨_, (Host.Outcome.next.inj h).symm⟩))))
  | mw addr bytes =>
    simp only [perform] at h
    split at h
    · rename_i hr
      exact .inr (.inr (.inr (.inr (.inr (.inl
        ⟨addr, bytes, inRange_iff.mp hr, (Host.Outcome.next.inj h).symm⟩)))))
    · cases h
  | mr addr n =>
    simp only [perform] at h
    split at h
    · exact .inr (.inr (.inr (.inr (.inl ⟨_, (Host.Outcome.next.inj h).symm⟩))))
    · cases h
  | reset inputs =>
    exact .inr (.inr (.inr (.inr (.inr (.inr ⟨inputs, rfl, (Host.Outcome.next.inj h).symm⟩)))))

/-- A step is idle or performs the next host action (R103). -/
theorem step_cases {s t : State} (h : step s = .next t) :
    (s.actions = [] ∧ t = s) ∨
      ∃ a rest, s.actions = a :: rest ∧ perform exec a { s with actions := rest } = .next t := by
  unfold step at h
  split at h
  · exact .inl ⟨by assumption, (Host.Outcome.next.inj h).symm⟩
  · exact .inr ⟨_, _, by assumption, h⟩

end Sys2Proof.Machine
end

