-- ==== Sys2Proof/Laws/Decode.lean ====
section
/-! SUPPORT. The decoder as a chain of comparisons with the eight words of the opcode map (30_encoding.md rule
R95), and the encoder's eight words. -/

namespace Sys2Proof

/-- No two rows of the opcode map have the same word (R95). -/
theorem opcodeMap_distinct : opcodeMap.Pairwise (fun r q => r.pattern ≠ q.pattern) := by
  decide

/-- The mask of every row keeps the whole word (R95). -/
theorem fullMask (w : Word32) : w &&& 0xffffffff = w := by
  rw [show (0xffffffff : Word32) = BitVec.allOnes 32 from by decide, BitVec.and_allOnes]

/-- The decoder, word by word (R95, R97). -/
theorem decode_eq (w : Word32) : decode w =
    if w = 0x00000001 then .command .bsel else if w = 0x00000010 then .command .hnew
    else if w = 0x00000011 then .command .hinput else if w = 0x00000012 then .command .hfinish
    else if w = 0x00000013 then .command .hfinishw else if w = 0x00000020 then .command .expand
    else if w = 0x00000030 then .command .clabel else if w = 0x00000031 then .command .clabelx
    else .illegal w := by
  by_cases h1 : w = 0x00000001
  · subst h1; decide
  by_cases h2 : w = 0x00000010
  · subst h2; decide
  by_cases h3 : w = 0x00000011
  · subst h3; decide
  by_cases h4 : w = 0x00000012
  · subst h4; decide
  by_cases h5 : w = 0x00000013
  · subst h5; decide
  by_cases h6 : w = 0x00000020
  · subst h6; decide
  by_cases h7 : w = 0x00000030
  · subst h7; decide
  by_cases h8 : w = 0x00000031
  · subst h8; decide
  simp only [h1, h2, h3, h4, h5, h6, h7, h8, if_false]
  unfold decode opcodeMap
  simp only [List.find?, fullMask, beq_eq_false_iff_ne.mpr, h1, h2, h3, h4, h5, h6, h7, h8, ne_eq,
    not_false_eq_true]

end Sys2Proof
end

