-- ==== Sys2Proof/Laws/Meanings.lean ====
section
/-! SUPPORT. One lemma per shared operation and per meaning that says what it gives when its checks hold: the backend
selection (40_backend.md rule R122), the absorbed blocks, each command's completion. Proofs cite these. -/

namespace Sys2Proof.Machine

/-- The selection `EnsureBackend` leaves (R122). -/
theorem ensuredBackend_eq (s : State) :
    ensuredBackend s = if s.backend = .unselected then select s.inputs else s.backend := by
  unfold ensuredBackend
  cases s.backend <;> simp

/-- No body writes `BACKEND`. -/
theorem bodyOf_backend (i : Instr) (c : Context) (s : State) : (bodyOf i c s).backend = s.backend := by
  have h := bodyOf_outcome i c s
  generalize bodyOf i c s = t at h
  cases h <;> simp

/-- The executing context of a state whose list of contexts was set at it. -/
theorem set_context? {s : State} {c : Context} (h : s.context? = some c) (d : Context) :
    (s.ctxs.set s.current d)[s.current]? = some d := by
  obtain ⟨hlt, -⟩ := List.getElem?_eq_some_iff.mp h
  exact List.getElem?_set_self hlt

/-- An address outside a command's store is outside its range. -/
theorem outside_store {c : Context} {i : Instr} {addr n a : Nat} (hs : storeRange i c = some (addr, n))
    (h : ¬ inStore (storeRange i c) a) : a < addr ∨ addr + n ≤ a := by
  rw [hs] at h
  simp only [inStore] at h
  omega

/-- A register's number names it. -/
theorem regOfNumber_numberOf (r : CtxReg) : regOfNumber (numberOf r) = .ctx r := by
  cases r <;> rfl

/-- A byte string written is read back. -/
theorem readList_memWrite_bytes {m : Memory} (h : Memory.wf m) (a : Nat) {n : Nat} (b : Bytes n) :
    readList (memWrite m a b.data) a n = b.data := by
  have := readList_memWrite h a b.data
  rwa [b.size] at this

theorem readList_add (m : Memory) (a k j : Nat) : readList m a (k + j) = readList m a k ++ readList m (a + k) j := by
  induction k generalizing a with
  | zero => simp [readList]
  | succ k ih =>
    have h : k + 1 + j = (k + j) + 1 := by omega
    rw [h, readList, ih, readList]
    simp
    congr 1
    omega

/-- The bytes of the pairs a command reads are the bytes in memory. -/
theorem messageOf_readPairs (m : Memory) (a n : Nat) : messageOf (readPairs m a n) = readList m a (128 * n) := by
  induction n generalizing a with
  | zero => rfl
  | succ n ih =>
    have h : 128 * (n + 1) = 64 + (64 + 128 * n) := by omega
    rw [readPairs, messageOf, List.flatMap_cons, ← messageOf, ih, h, readList_add, readList_add]
    simp [memRead]

/-- `HINPUT` when its checks hold (R165). -/
theorem hinput_completes {s : State} {c : Context} {hs : HashState} (h : Ready s c) (hh : c.hash = some hs)
    (he : c.cnt.toNat % 2 = 0) (hr : c.src.toNat + 64 * c.cnt.toNat ≤ s.memSize) :
    exec .hinput s =
      .next (complete (ensureBackend s) { c with hash := some (hashInput hs (inputPairs s.mem c)) }) := by
  rw [exec_ready h]
  have hr' : c.src.toNat + inputLength c ≤ (ensureBackend s).memSize := hr
  simp only [bodyOf, hinputBody, hh, he, inRange_iff.mpr hr']
  rfl

/-- `HFINISH` when its checks hold (R168). -/
theorem hfinish_completes {s : State} {c : Context} {hs : HashState} (h : Ready s c) (hh : c.hash = some hs)
    (hr : c.dst.toNat + 64 ≤ s.memSize) :
    exec .hfinish s =
      .next (completeStore (ensureBackend s) { c with hash := none } (resultAddr c) (hashFinish hs).data) := by
  rw [exec_ready h]
  simp [bodyOf, hfinishBody, hh, State.inRange, resultAddr, hr]

/-- `HFINISHW` when its checks hold (R170). -/
theorem hfinishw_completes {s : State} {c : Context} {hs : HashState} (h : Ready s c) (hh : c.hash = some hs)
    (hc : c.cnt.toNat = 64) (h1 : c.src.toNat + 64 ≤ s.memSize) (hr : c.dst.toNat + 64 ≤ s.memSize) :
    exec .hfinishw s = .next (completeStore (ensureBackend s) { c with hash := none } (resultAddr c)
      (hashFinishWith hs (memRead s.mem c.src.toNat 64)).data) := by
  rw [exec_ready h]
  simp [bodyOf, hfinishwBody, hh, State.inRange, resultAddr, hr, h1, hc]

/-- `EXPAND` when its checks hold (R191). -/
theorem expand_completes {s : State} {c : Context} (h : Ready s c) (hc : c.cnt.toNat = 32)
    (h1 : c.src.toNat + 32 ≤ s.memSize) (hr : c.dst.toNat + 64 ≤ s.memSize) :
    exec .expand s = .next (completeStore (ensureBackend s) c (resultAddr c)
      (expandBytes (memRead s.mem c.src.toNat 32)).data) := by
  rw [exec_ready h]
  simp [bodyOf, expandBody, State.inRange, resultAddr, hr, h1, hc]

/-- A label command on node 0 when its checks hold (R203, R205). -/
theorem deriveLabel_node_zero {s : State} {c : Context} (v : OracleVariant) (hn : c.node = 0)
    (h1 : c.rid.toNat + 32 ≤ s.memSize) (h2 : slotAddr c + 32 ≤ s.memSize) :
    deriveLabel v c (ensureBackend s) = completeStore (ensureBackend s) c (slotAddr c)
      (labelOf (hashFinish (labelPrefix (memRead s.mem c.rid.toNat 32) c.layer c.node))).data := by
  simp only [deriveLabel, ensureBackend_inRange, inRange_iff.mpr h1, inRange_iff.mpr h2, hn, ensureBackend_mem]
  simp

/-- A label command above node 0 when the oracle answers `Ok` (R203). -/
theorem deriveLabel_ok {s : State} {c : Context} {blocks : List BlockPair} {tail : Option Block} (v : OracleVariant)
    (hn : c.node ≠ 0) (h1 : c.rid.toNat + 32 ≤ s.memSize) (h2 : slotAddr c + 32 ≤ s.memSize)
    (ho : s.oracleAnswer (oracleQuery v c s) = .ok blocks tail) :
    deriveLabel v c (ensureBackend s) = (completeStore (ensureBackend s) c (slotAddr c)
      (labelOf (parentDigest (labelPrefix (memRead s.mem c.rid.toNat 32) c.layer c.node) blocks tail)).data).consulted := by
  have ho' : (ensureBackend s).oracleAnswer (oracleQuery v c (ensureBackend s)) = .ok blocks tail := ho
  simp only [deriveLabel, ensureBackend_inRange, inRange_iff.mpr h1, inRange_iff.mpr h2, hn, ensureBackend_mem, ho']
  simp

/-- A label command above node 0 when the oracle answers `Err` (R208). -/
theorem deriveLabel_err {s : State} {c : Context} {e : Word64} (v : OracleVariant) (hn : c.node ≠ 0)
    (h1 : c.rid.toNat + 32 ≤ s.memSize) (h2 : slotAddr c + 32 ≤ s.memSize)
    (ho : s.oracleAnswer (oracleQuery v c s) = .err e) :
    deriveLabel v c (ensureBackend s) = (collaboratorError (ensureBackend s) c e).consulted := by
  have ho' : (ensureBackend s).oracleAnswer (oracleQuery v c (ensureBackend s)) = .err e := ho
  simp only [deriveLabel, ensureBackend_inRange, inRange_iff.mpr h1, inRange_iff.mpr h2, hn, ho']
  simp

end Sys2Proof.Machine
end

