-- ==== Sys2Proof/Laws/PerInstr.lean ====
section
/-! SUPPORT. The per-instruction family `FormatZ`: each command's word has the one format of
30_encoding.md rule R91, its opcode in bits 7:0 and its field `zero` 0. -/

namespace Sys2Proof.Laws.FormatZ

/-- The command's word is of format `Z` (R91). -/
def Statement (i : Instr) : Prop :=
  wordHasFormatZ (encode i) = true ∧ (encode i).setWidth 8 = opcodeOf i ∧ i.wf = true

theorem bsel : Statement .bsel := by unfold Statement; decide
theorem hnew : Statement .hnew := by unfold Statement; decide
theorem hinput : Statement .hinput := by unfold Statement; decide
theorem hfinish : Statement .hfinish := by unfold Statement; decide
theorem hfinishw : Statement .hfinishw := by unfold Statement; decide
theorem expand : Statement .expand := by unfold Statement; decide
theorem clabel : Statement .clabel := by unfold Statement; decide
theorem clabelx : Statement .clabelx := by unfold Statement; decide

end Sys2Proof.Laws.FormatZ
end

