-- ==== Sys2Proof/Tests/Slice0.lean ====
section
/-! SUPPORT. The model's own tests: ill-formed terms refused, words written out from the encoding (30_encoding.md
rule R91), vectors of 95_test_vectors.md, and for every statement with hypotheses a witness that meets them. -/

namespace Sys2Proof.Tests

open Sys2Proof Sys2Proof.Machine

/-! ### Helpers -/

/-- The bytes `first, first + 1, ..` of the vectors' ranges. -/
def ramp (first n : Nat) : List Byte :=
  (List.range n).map (fun i => BitVec.ofNat 8 (first + i))

/-- The inputs of the vectors: `ARCH_OK CPU_AVX CPU_AVX2 FEAT_AVX FEAT_AVX2`. -/
def inputs (a b c d e : Bool) : SelInputs :=
  { archOk := a, cpuAvx := b, cpuAvx2 := c, featAvx := d, featAvx2 := e }

/-- The unit after reset with `MEMSIZE = 0x1000` and bytes at an address (95_test_vectors.md 2.6), context 0 being
`c` and executing. -/
def unit (c : Context) (addr : Nat) (bytes : List Byte) : State :=
  { State.afterReset 2 0x1000 (inputs true false false false false) (memWrite [] addr bytes) with
    ctxs := [c, Context.reset] }

/-- The outcome is a next state with a property. -/
def ends (p : State → Bool) : StepOutcome → Bool
  | .next t => p t
  | .fault _ => false
  | .refused _ => false

theorem ends_elim {p : State → Bool} {o : StepOutcome} (h : ends p o = true) : ∃ t, o = .next t ∧ p t = true := by
  cases o with
  | next t => exact ⟨t, rfl, h⟩
  | fault r => cases h
  | refused r => cases h

/-- `STATUS` and `ERRINFO` of context 0. -/
def reads (t : State) (status : Word32) (errInfo : Word64) : Bool :=
  match t.ctxs with
  | c :: _ => statusWord c == status && c.errInfo == errInfo
  | [] => false

/-- The context after `HNEW`. -/
def live : Context := { Context.reset with hash := some hashNew }

/-! ### Well-formedness: an ill-formed term for each check -/

theorem test_wf_instr : ∀ i : Instr, i.wf = true := by intro i; cases i <;> decide

-- F2: the field `zero` is not 0
theorem test_wf_word_zero_field : wordHasFormatZ 0x00000110 = false := by decide
theorem test_wf_cmd_context : HostAction.wf 2 0x1000 (.cmd 2 1) = false := by decide
theorem test_wf_wr_context : HostAction.wf 2 0x1000 (.wr 2 0x03 0) = false := by decide
theorem test_wf_rd_context : HostAction.wf 2 0x1000 (.rd 2 0x03) = false := by decide
theorem test_wf_wr_layer_width : HostAction.wf 2 0x1000 (.wr 0 0x09 0x100000000) = false := by decide
theorem test_wf_wr_cache_width : HostAction.wf 2 0x1000 (.wr 0 0x0B 2) = false := by decide
theorem test_wf_wr_cmd_width : HostAction.wf 2 0x1000 (.wr 0 0x00 0x100000000) = false := by decide
theorem test_wf_mw_range : HostAction.wf 2 0x1000 (.mw 0xfff [1, 2]) = false := by decide
theorem test_wf_mr_range : HostAction.wf 2 0x1000 (.mr 0xfff 2) = false := by decide
theorem test_wf_mr_at_the_end : HostAction.wf 2 0x1000 (.mr 0xffe 2) = true := by decide

/-! ### Decoding: the words of R91 and R95, field `zero` then field `opcode` -/

theorem test_decode_bsel : decode 0b00000000_00000000_00000000_00000001 = .command .bsel := by decide
theorem test_decode_hnew : decode 0b00000000_00000000_00000000_00010000 = .command .hnew := by decide
theorem test_decode_hinput : decode 0b00000000_00000000_00000000_00010001 = .command .hinput := by decide
theorem test_decode_hfinish : decode 0b00000000_00000000_00000000_00010010 = .command .hfinish := by decide
theorem test_decode_hfinishw : decode 0b00000000_00000000_00000000_00010011 = .command .hfinishw := by decide
theorem test_decode_expand : decode 0b00000000_00000000_00000000_00100000 = .command .expand := by decide
theorem test_decode_clabel : decode 0b00000000_00000000_00000000_00110000 = .command .clabel := by decide
theorem test_decode_clabelx : decode 0b00000000_00000000_00000000_00110001 = .command .clabelx := by decide
-- F1, F2, B3 and an unlisted opcode beside a listed one
theorem test_decode_zero_word : decode 0 = .illegal 0 := by decide
theorem test_decode_upper_field : decode 0x00000110 = .illegal 0x00000110 := by decide
theorem test_decode_top_bit : decode 0x80000001 = .illegal 0x80000001 := by decide
theorem test_decode_unlisted : decode 0x00000014 = .illegal 0x00000014 := by decide
theorem test_table_word : decodeTableWord 32 0x31 = some .clabelx := by decide
theorem test_table_word_illegal : decodeTableWord 32 0x131 = none := by decide

/-! ### The pure functions -/

-- 2.1, logical functions
theorem test_bsig0 : bsig0 0x0123456789abcdef = 0xb7c57a100c7ec1ab := by decide
theorem test_bsig1 : bsig1 0x0123456789abcdef = 0x7703112333475567 := by decide
theorem test_ssig0 : ssig0 0x0123456789abcdef = 0x6f92c77c6c4f1aa1 := by decide
theorem test_ssig1 : ssig1 0x0123456789abcdef = 0x70a3460dbbd4317a := by decide
theorem test_ch : roundCh { initialVector with
    w4 := 0x0123456789abcdef, w5 := 0xfedcba9876543210, w6 := 0x0f1e2d3c4b5a6978 } = 0x0e1c281842502010 := by decide
theorem test_maj : roundMaj { initialVector with
    w0 := 0x0123456789abcdef, w1 := 0xfedcba9876543210, w2 := 0x0f1e2d3c4b5a6978 } = 0x0f1e2d3c4b5a6978 := by decide

-- C1
theorem test_compress_zeros : (compress1024 initialVector (zeros 128)).toList =
    [0xcf7881d5774acbe8, 0x533362e0fbc78070, 0x0267639d87460eda, 0x3086cb40e85931b0,
      0x717dc95288a023a3, 0x96bab2c14ce0b5e0, 0x6fc4fe04eae33e0b, 0x91f4d80cbd668bee] := by decide +kernel

-- C5
theorem test_digest_abc : (stdSha512 [0x61, 0x62, 0x63]).data =
    beBytes 64 0xddaf35a193617abacc417349ae20413112e6fa4e89a97ea20a9eeee64b55d39a2192992a274fc1a836ba3c23a3feebbd454d4423643ce80e2a9ac94fa54ca49f := by
  decide +kernel

-- B1: the sixteen rows with `ARCH_OK = 1`, and `ARCH_OK = 0`
theorem test_select_table : [(false, false, false, false), (false, false, false, true), (false, false, true, false),
    (false, false, true, true), (false, true, false, false), (false, true, false, true), (false, true, true, false),
    (false, true, true, true), (true, false, false, false), (true, false, false, true), (true, false, true, false),
    (true, false, true, true), (true, true, false, false), (true, true, false, true), (true, true, true, false),
    (true, true, true, true)].map (fun r => backendWord (select (inputs true r.1 r.2.1 r.2.2.1 r.2.2.2))) =
    [0x01, 0x37, 0x37, 0x27, 0x03, 0x03, 0x37, 0x27, 0x02, 0x37, 0x02, 0x27, 0x03, 0x03, 0x02, 0x27] := by decide
theorem test_select_no_arch : ∀ b c d e, backendWord (select (inputs false b c d e)) = 0x17 := by decide

-- V9
theorem test_add128_carry : add128 0 (BitVec.ofNat 64 (2 ^ 64 - 1024)) 1024 = (1, 0) := by decide
theorem test_add128_wrap :
    add128 (BitVec.ofNat 64 (2 ^ 64 - 1)) (BitVec.ofNat 64 (2 ^ 64 - 1024)) 1024 = (0, 0) := by decide
theorem test_finish_high_word : (hashFinish { h := initialVector, lenHi := 1, lenLo := 0x400 }).data =
    beBytes 64 0xc42824307d5aebce24dc58d13bc21d0ef38e7511032a766d0545d3cb62a68c28fa3265ca72a5a91aa3a9946d7a87d8444cdf042d7d48a0154412d80b2fd0bbc3 := by
  decide +kernel

-- V13 and V14
theorem test_expand_words : (expandBytes (firstBytes 32
      (beBytes 32 0x0123456789abcdeffedcba987654321000112233445566778899aabbccddeeff))).data.drop 32 =
    beBytes 32 0x3322110077665544bbaa9988ffeeddcc89abcdef0123456776543210fedcba98 := by decide +kernel
theorem test_expand_last_byte : (expandBytes (firstBytes 32 (beBytes 32 0x80))).data.drop 32 =
    [0xff, 0xff, 0xff, 0x7f] ++ List.replicate 28 0xff := by decide +kernel

-- 2.5, header and mask
theorem test_header : (labelHeader 0x01020304 0x05060708090a0b0c).data =
    beBytes 12 0x0102030405060708090a0b0c ++ List.replicate 52 0 := by decide +kernel
theorem test_mask : [0xff, 0xc0, 0x80, 0x40, 0x3f, 0x8c, 0xc9, 0x00].map
      (fun b => (maskLabel (firstBytes 32 (List.replicate 31 0xaa ++ [b]))).data) =
    [0x3f, 0x00, 0x00, 0x00, 0x3f, 0x0c, 0x09, 0x00].map (fun b => List.replicate 31 0xaa ++ [b]) := by
  decide +kernel

-- V30 and V31, before `FrReduce`
theorem test_proof_stream_no_parent : (stdSha512 (proofStream (firstBytes 32 (ramp 0 32))
      { parents := [], layerIndex := 1, node := 0 })).data.take 32 =
    beBytes 32 0xb27005f31b3ebf63121277c20edcb8f774546f651260bf9e841795aaa2e4f2c3 := by decide +kernel
theorem test_proof_stream_one_parent : (stdSha512 (proofStream (firstBytes 32 (ramp 0 32))
      { parents := [firstBytes 32
          (beBytes 32 0x6edd1f352eda0487a8ed056c2214a70277b24f43aa3839c2408a0ed4573aa70c)]
        layerIndex := 1
        node := 1 })).data.take 32 =
    beBytes 32 0x2118b368fb23284e8e63bcd3c997f35b728078950736f1542d659eaf24b508d1 := by decide +kernel

/-! ### The commands, one step each -/

-- R123's example
theorem test_bsel_avx2 : ends (fun t => backendWord t.backend == 0x03 && reads t 0 0)
    (exec .bsel { unit Context.reset 0 [] with inputs := inputs true true true false false }) = true := by decide
-- B4, second row
theorem test_bsel_conflict : ends (fun t => backendWord t.backend == 0x27 && reads t 0x00000002 0)
    (exec .bsel { unit Context.reset 0 [] with inputs := inputs true true true true true }) = true := by decide

-- V2
theorem test_hnew : ends (fun t => reads t 0x00010000 0 && backendWord t.backend == 0x01)
    (exec .hnew (unit Context.reset 0 [])) = true := by decide
-- V9b: the live state is discarded
theorem test_hnew_discards : ends (fun t => t.ctxs == [live, Context.reset])
    (exec .hnew (unit { live with hash := some { h := initialVector, lenHi := 7, lenLo := 1024 } } 0 [])) = true := by
  decide

-- V4 and C2, at F10's place: the last 128 bytes of memory
theorem test_hinput : ends (fun t => reads t 0x00010000 0 &&
      t.ctxs.map (fun c => c.hash.map (fun hs => (hs.h.toList, hs.lenHi, hs.lenLo))) ==
        [some ([0x8e03953cd57cd687, 0x9321270afa70c582, 0x7bb5b69be59a8f01, 0x30147e94f2aedf7b,
          0xdc01c56c92343ca8, 0xbd837bb7f0208f5a, 0x23e155694516b6f1, 0x47099d491a30b151], 0, 1024), none])
    (exec .hinput (unit { live with src := 0xf80, cnt := 2 } 0xf80 (ramp 0 128))) = true := by decide +kernel
-- F14: the range check is made for no blocks too
theorem test_hinput_empty_out_of_range : ends (fun t => reads t 0x00010009 0xffffffffffffffff)
    (exec .hinput (unit { live with src := 0xffffffffffffffff } 0 [])) = true := by decide

-- V1
theorem test_hfinish_empty : ends (fun t => reads t 0 0 && readList t.mem 0x200 64 ==
      beBytes 64 0xcf83e1357eefb8bdf1542850d66d8007d620e4050b5715dc83f4a921d36ce9ce47d0d13c5d85f2b0ff8318d2877eec2f63b931bd47417a81a538327af927da3e)
    (exec .hfinish (unit { live with dst := 0x200 } 0 [])) = true := by decide +kernel
-- F11
theorem test_hfinish_out_of_range : ends (fun t => reads t 0x00010009 0xfc1 && t.mem == [])
    (exec .hfinish (unit { live with dst := 0xfc1 } 0 [])) = true := by decide

-- V9c with the digest of V6: the block is read before the digest is written over it
theorem test_hfinishw_in_place : ends (fun t => reads t 0 0 && readList t.mem 0x200 64 ==
      beBytes 64 0xee4320ebaf3fdb4f2c832b137200c08e235e0fa7bbd0eb1740c7063ba8a0d151da77e003398e1714a955d475b05e3e950b639503b452ec185de4229bc4873949)
    (exec .hfinishw (unit { live with src := 0x200, dst := 0x200, cnt := 64 } 0x200 (ramp 0 64))) = true := by
  decide +kernel
-- F8
theorem test_hfinishw_length : ends (fun t => reads t 0x00010008 0x80)
    (exec .hfinishw (unit { live with cnt := 128 } 0 [])) = true := by decide

-- V12 with `DST = SRC`
theorem test_expand_in_place : ends (fun t => reads t 0 0 && readList t.mem 0x200 64 == ramp 0 32 ++
      beBytes 32 0xe3e2e1e0e7e6e5e4ebeae9e8efeeedecf3f2f1f0f7f6f5f4fbfaf9f8fffefdfc)
    (exec .expand (unit { Context.reset with src := 0x200, dst := 0x200, cnt := 32 } 0x200 (ramp 0 32))) = true := by
  decide +kernel
-- F7: the length is checked before the range
theorem test_expand_length : ends (fun t => reads t 0x00000007 0x1f)
    (exec .expand (unit { Context.reset with src := 0xffff, cnt := 31 } 0 [])) = true := by decide

-- F16 with the label of V15: the slot is the last 32 bytes of memory and overlaps the identifier
theorem test_clabel_node_zero : ends (fun t => reads t 0 0 && readList t.mem 0xfe0 32 ==
      beBytes 32 0x6edd1f352eda0487a8ed056c2214a70277b24f43aa3839c2408a0ed4573aa70c)
    (exec .clabel (unit { Context.reset with rid := 0xfe0, lbase := 0xfe0, layer := 1 } 0xfe0 (ramp 0 32))) = true := by
  decide +kernel
-- F12: the slot's address does not wrap
theorem test_clabel_slot_out_of_range : ends (fun t => reads t 0x00000009 0xffffffffffffffe0)
    (exec .clabel (unit { Context.reset with lbase := 0xffffffffffffffe0, node := 1 } 0 [])) = true := by decide

/-- The block `p0 ‖ p0` of the vectors V20 to V22. -/
def parents : Block :=
  firstBytes 64 (beBytes 32 0x6edd1f352eda0487a8ed056c2214a70277b24f43aa3839c2408a0ed4573aa70c ++
    beBytes 32 0x6edd1f352eda0487a8ed056c2214a70277b24f43aa3839c2408a0ed4573aa70c)

-- V22: two blocks and a last block, after a live hash state of the context's own
theorem test_clabelx_parents : ends (fun t => reads t 0x00010000 0 && t.answers == [] && readList t.mem 0x440 32 ==
      beBytes 32 0x29ac3e8cf9ea8eeabc7e4a3176e28768014fca7576df303eecea4a0e1ab0060e)
    (exec .clabelx { unit { live with rid := 0x100, lbase := 0x400, layer := 1, node := 2 } 0x100 (ramp 0 32) with
      answers := [.ok [(parents, parents)] (some parents)] }) = true := by decide +kernel
-- V23: `RES` 1 and no fault
theorem test_clabelx_error : ends (fun t => reads t 0x00000100 0xdead0001 && t.answers == [])
    (exec .clabelx { unit { Context.reset with rid := 0x100, lbase := 0x400, node := 1 } 0x100 [] with
      answers := [.err 0xdead0001] }) = true := by decide +kernel

/-! ### Witnesses: for each statement with hypotheses, values that meet all of them together -/

/-- A context set up for any command of the vectors at `MEMSIZE = 0x1000`; its slot and result end memory. -/
def ready : Context :=
  { live with src := 0xfc0, cnt := 64, dst := 0xfc0, rid := 0xfe0, lbase := 0xfe0, layer := 1 }

/-- The unit with that context and bytes `00..3f` at the end of memory. -/
def readyUnit (c : Context) : State := unit c 0xfc0 (ramp 0 64)

theorem ready_unit (c : Context) (h : c.fault = none) : Ready (readyUnit c) c := ⟨rfl, h, rfl⟩

theorem unit_wf (c : Context) : Memory.wf (readyUnit c).mem := memWrite_wf (by decide) _ _

/-- The unit whose selection fails. -/
def failing : State := { unit live 0 [] with inputs := inputs false false false false false }

/-- A faulted context (F5). -/
def odd : Context := { live with cnt := 3, fault := some .preOddBlocks, errInfo := 3 }

theorem witness_DecodeOfEncodeIsTheCommand : Instr.wf .clabelx = true := by decide

-- beside a listed word, and beyond the listed opcodes
theorem witness_WordDecodesByTheOpcodeMap : (0x00000110 : Word32) ∉ ([0x00000001, 0x00000010, 0x00000011,
    0x00000012, 0x00000013, 0x00000020, 0x00000030, 0x00000031] : List Word32) := by decide

theorem witness_StepRunsTheDecodedCommand :
    ({ unit live 0 [] with actions := [.cmd 1 0x31] } : State).actions = .cmd 1 0x31 :: [] ∧
      decode 0x31 = .command .clabelx := by decide

-- the largest value that fits, and a command's word
theorem witness_WriteOfCmdRegisterIssuesTheWord :
    1 < (unit live 0 []).ctxs.length ∧ (0xffffffff : Word64).toNat < 2 ^ 32 ∧
      (0x31 : Word64).toNat < 2 ^ 32 ∧ decode ((0x31 : Word64).setWidth 32) = .command .clabelx := by decide

theorem witness_IllegalWordFaultsAndChangesNothingElse :
    ({ unit live 0 [] with actions := [.cmd 0 0x110] } : State).actions = .cmd 0 0x110 :: [] ∧
      decode 0x110 = .illegal 0x110 ∧ (unit live 0 []).ctxs[0]? = some live ∧ live.fault = none := by decide

theorem witness_FaultedContextIgnoresEveryWord :
    ({ unit odd 0 [] with actions := [.cmd 0 0x11] } : State).actions = .cmd 0 0x11 :: [] ∧
      (unit odd 0 []).ctxs[0]? = some odd ∧ odd.fault ≠ none := by decide

-- both sides of the equivalence, at the last byte of memory and one past it
theorem witness_HostActionIsPerformedExactlyWhenWellFormed :
    ({ unit live 0 [] with actions := [.mr 0xfff 1] } : State).actions = .mr 0xfff 1 :: [] ∧
      HostAction.wf 2 0x1000 (.mr 0xfff 1) = true ∧ HostAction.wf 2 0x1000 (.mr 0xfff 2) = false := by decide

theorem witness_EnsureBackendSelectsOnceAndFaultsWhenFailed :
    failing.context? = some live ∧ live.fault = none ∧ failing.backend = .unselected ∧
      select failing.inputs = .failed .arch := by decide

-- the three ways: kept, selected, cleared by reset
theorem witness_BackendIsWrittenOnceBetweenResets :
    (∃ t, step { unit live 0 [] with actions := [.rd 0 1] } = .next t ∧ t.backend = .unselected) ∧
      (∃ t, step { unit live 0 [] with actions := [.cmd 0 0x01] } = .next t ∧ t.backend = .portable) ∧
      (∃ t, step { unit live 0 [] with
          backend := .portable
          actions := [.reset (inputs true true true false false)] } = .next t ∧ t.backend = .unselected) :=
  ⟨⟨_, rfl, rfl⟩, ⟨_, rfl, rfl⟩, ⟨_, rfl, rfl⟩⟩

theorem witness_SelectedBackendHasNoInfluence :
    Backend.portable ∈ [Backend.portable, .avx, .avx2] ∧ Backend.avx2 ∈ [Backend.portable, .avx, .avx2] ∧
      ∃ t, exec .hnew { unit live 0 [] with backend := .portable } = .next t :=
  ⟨by decide, by decide, _, rfl⟩

-- a faulted context, a failing selection, a succeeding one
theorem witness_BselSelectsAndCompletes :
    ((unit odd 0 []).context? = some odd ∧ odd.fault ≠ none) ∧
      (failing.context? = some live ∧ live.fault = none ∧ (ensuredBackend failing).error? = some .arch) ∧
      ((unit live 0 []).context? = some live ∧ (ensuredBackend (unit live 0 [])).error? = none) := by decide

-- the schedule's clauses at 0, 15 and at 16, 79, where they meet
theorem witness_MessageScheduleFollowsTheRecurrence :
    0 < 16 ∧ 15 < 16 ∧ 16 ≤ 16 ∧ 16 < 80 ∧ 16 ≤ 79 ∧ 79 < 80 := by decide

theorem witness_AddOneTwentyEightCarriesIntoTheHighWord : 2 ^ 64 - 1 < 2 ^ 64 := by decide

-- `q` 0 and 1
theorem witness_FinishGivesTheStandardDigest :
    ([] : List Byte).length = 128 * 0 ∧ (ramp 0 128).length = 128 * 1 := by simp [ramp]

theorem witness_FinishWithGivesTheStandardDigest :
    (ramp 0 64).length = 128 * 0 + 64 ∧ (ramp 0 192).length = 128 * 1 + 64 := by simp [ramp]

theorem witness_HnewStartsAFreshHash : Ready (readyUnit ready) ready := ready_unit ready rfl

-- no state; an odd count; one byte out of range; memory filled; no block at the end of memory
theorem witness_HinputAbsorbsTheBlocks :
    (Ready (readyUnit Context.reset) Context.reset ∧ Context.reset.hash = none) ∧
    (Ready (readyUnit { ready with cnt := 1 }) { ready with cnt := 1 } ∧ ready.hash = some hashNew ∧
      (1 : Word64).toNat % 2 = 1) ∧
    (Ready (readyUnit { ready with src := 1 }) { ready with src := 1 } ∧ ready.cnt.toNat % 2 = 0 ∧
      (readyUnit { ready with src := 1 }).memSize < (1 : Word64).toNat + 64 * ready.cnt.toNat) ∧
    (Ready (readyUnit { ready with src := 0 }) { ready with src := 0 } ∧
      (0 : Word64).toNat + 64 * ready.cnt.toNat ≤ (readyUnit { ready with src := 0 }).memSize) ∧
    (Ready (readyUnit { ready with src := 0x1000, cnt := 0 }) { ready with src := 0x1000, cnt := 0 } ∧
      (0 : Word64).toNat % 2 = 0 ∧ (0x1000 : Word64).toNat + 64 * (0 : Word64).toNat ≤ 0x1000) :=
  ⟨⟨ready_unit Context.reset rfl, rfl⟩, ⟨ready_unit { ready with cnt := 1 } rfl, rfl, by decide⟩,
    ⟨ready_unit { ready with src := 1 } rfl, by decide⟩, ⟨ready_unit { ready with src := 0 } rfl, by decide⟩,
    ready_unit { ready with src := 0x1000, cnt := 0 } rfl, by decide⟩

theorem absorbed_none : absorbed hashNew [] := ⟨rfl, rfl⟩

theorem witness_HinputExtendsTheAbsorbedMessage :
    Ready (readyUnit { ready with src := 0 }) { ready with src := 0 } ∧ ready.hash = some hashNew ∧
      absorbed hashNew [] ∧ ready.cnt.toNat % 2 = 0 ∧
      (0 : Word64).toNat + 64 * ready.cnt.toNat ≤ (readyUnit { ready with src := 0 }).memSize :=
  ⟨ready_unit _ rfl, rfl, absorbed_none, by decide, by decide⟩

-- no state; one byte out of range; the last 64 bytes
theorem witness_HfinishWritesTheDigest :
    (Ready (readyUnit Context.reset) Context.reset ∧ Memory.wf (readyUnit Context.reset).mem ∧
      Context.reset.hash = none) ∧
    (Ready (readyUnit { ready with dst := 0xfc1 }) { ready with dst := 0xfc1 } ∧
      0x1000 < (0xfc1 : Word64).toNat + 64) ∧
    (Ready (readyUnit ready) ready ∧ Memory.wf (readyUnit ready).mem ∧ ready.hash = some hashNew ∧
      ready.dst.toNat + 64 ≤ (readyUnit ready).memSize) :=
  ⟨⟨ready_unit _ rfl, unit_wf _, rfl⟩, ⟨ready_unit { ready with dst := 0xfc1 } rfl, by decide⟩,
    ready_unit _ rfl, unit_wf _, rfl, by decide⟩

-- no state; counts beside 64; either range one byte out; the last 64 bytes
theorem witness_HfinishwWritesTheDigest :
    (Ready (readyUnit Context.reset) Context.reset ∧ Context.reset.hash = none) ∧
    (Ready (readyUnit { ready with cnt := 63 }) { ready with cnt := 63 } ∧ (63 : Word64).toNat ≠ 64) ∧
    (Ready (readyUnit { ready with src := 0xfc1 }) { ready with src := 0xfc1 } ∧
      0x1000 < (0xfc1 : Word64).toNat + 64) ∧
    (Ready (readyUnit { ready with dst := 0xfc1 }) { ready with dst := 0xfc1 } ∧ ready.src.toNat + 64 ≤ 0x1000) ∧
    (Ready (readyUnit ready) ready ∧ Memory.wf (readyUnit ready).mem ∧ ready.hash = some hashNew ∧
      ready.cnt.toNat = 64 ∧ ready.src.toNat + 64 ≤ (readyUnit ready).memSize ∧
      ready.dst.toNat + 64 ≤ (readyUnit ready).memSize) :=
  ⟨⟨ready_unit _ rfl, rfl⟩, ⟨ready_unit { ready with cnt := 63 } rfl, by decide⟩,
    ⟨ready_unit { ready with src := 0xfc1 } rfl, by decide⟩,
    ⟨ready_unit { ready with dst := 0xfc1 } rfl, by decide⟩,
    ready_unit _ rfl, unit_wf _, rfl, by decide, by decide, by decide⟩

theorem witness_HfinishLeavesTheStandardDigestOfTheMessage :
    Ready (readyUnit ready) ready ∧ Memory.wf (readyUnit ready).mem ∧ ready.hash = some hashNew ∧
      absorbed hashNew [] ∧ ready.dst.toNat + 64 ≤ (readyUnit ready).memSize :=
  ⟨ready_unit _ rfl, unit_wf _, rfl, absorbed_none, by decide⟩

theorem witness_HfinishwLeavesTheStandardDigestOfTheMessage :
    Ready (readyUnit ready) ready ∧ Memory.wf (readyUnit ready).mem ∧ ready.hash = some hashNew ∧
      absorbed hashNew [] ∧ ready.cnt = 64 ∧ ready.src.toNat + 64 ≤ (readyUnit ready).memSize ∧
      ready.dst.toNat + 64 ≤ (readyUnit ready).memSize :=
  ⟨ready_unit _ rfl, unit_wf _, rfl, absorbed_none, rfl, by decide, by decide⟩

-- the first and the last byte of the second half
theorem witness_ExpandHasItsClosedForm : 0 < 8 ∧ 0 < 4 ∧ 7 < 8 ∧ 3 < 4 := by decide

-- counts beside 32; either range one byte out; the end of memory
theorem witness_ExpandWritesTheExpansion :
    (Ready (readyUnit { ready with cnt := 33 }) { ready with cnt := 33 } ∧ (33 : Word64).toNat ≠ 32) ∧
    (Ready (readyUnit { ready with cnt := 32, src := 0xfe1 }) { ready with cnt := 32, src := 0xfe1 } ∧
      0x1000 < (0xfe1 : Word64).toNat + 32) ∧
    (Ready (readyUnit { ready with cnt := 32, dst := 0xfc1 }) { ready with cnt := 32, dst := 0xfc1 } ∧
      ready.src.toNat + 32 ≤ 0x1000 ∧ 0x1000 < (0xfc1 : Word64).toNat + 64) ∧
    (Ready (readyUnit { ready with cnt := 32, src := 0xfe0 }) { ready with cnt := 32, src := 0xfe0 } ∧
      Memory.wf (readyUnit { ready with cnt := 32, src := 0xfe0 }).mem ∧ (32 : Word64).toNat = 32 ∧
      (0xfe0 : Word64).toNat + 32 ≤ 0x1000 ∧ ready.dst.toNat + 64 ≤ 0x1000) :=
  ⟨⟨ready_unit { ready with cnt := 33 } rfl, by decide⟩,
    ⟨ready_unit { ready with cnt := 32, src := 0xfe1 } rfl, by decide⟩,
    ⟨ready_unit { ready with cnt := 32, dst := 0xfc1 } rfl, by decide⟩,
    ready_unit { ready with cnt := 32, src := 0xfe0 } rfl, unit_wf _, by decide⟩

theorem witness_LabelOfNodeZeroIsAStandardDigest :
    (Instr.clabelx = .clabel ∨ Instr.clabelx = .clabelx) ∧ Ready (readyUnit ready) ready ∧
      Memory.wf (readyUnit ready).mem ∧ ready.node = 0 ∧ ready.rid.toNat + 32 ≤ (readyUnit ready).memSize ∧
      slotAddr ready + 32 ≤ (readyUnit ready).memSize :=
  ⟨.inr rfl, ready_unit _ rfl, unit_wf _, rfl, by decide, by decide⟩

/-- A context set up for node 1, its slot ending memory. -/
def above : Context := { ready with lbase := 0xfc0, node := 1 }

/-- The unit with that context and an oracle answer already determined. -/
def aboveUnit (a : OracleAnswer) : State := { readyUnit above with answers := [a] }

theorem above_ready (a : OracleAnswer) : Ready (aboveUnit a) above := ⟨rfl, rfl, rfl⟩

theorem witness_LabelAboveNodeZeroIsTheDigestOfTheParentStream :
    ((Instr.clabel = .clabel ∧ OracleVariant.plain = .plain) ∨ (Instr.clabel = .clabelx ∧ OracleVariant.plain = .exp)) ∧
      Ready (aboveUnit (.ok [(parents, parents)] none)) above ∧
      Memory.wf (aboveUnit (.ok [(parents, parents)] none)).mem ∧ above.node ≠ 0 ∧
      above.rid.toNat + 32 ≤ 0x1000 ∧ slotAddr above + 32 ≤ 0x1000 ∧
      (aboveUnit (.ok [(parents, parents)] none)).oracleAnswer
        (oracleQuery .plain above (aboveUnit (.ok [(parents, parents)] none))) = .ok [(parents, parents)] none :=
  ⟨.inl ⟨rfl, rfl⟩, above_ready _, unit_wf above, by decide, by decide, by decide,
    by simp [aboveUnit, State.oracleAnswer, boundAnswer]⟩

theorem witness_CollaboratorErrorIsAResultNotAFault :
    ((Instr.clabelx = .clabel ∧ OracleVariant.exp = .plain) ∨ (Instr.clabelx = .clabelx ∧ OracleVariant.exp = .exp)) ∧
      Ready (aboveUnit (.err 0xdead0001)) above ∧ above.node ≠ 0 ∧ above.rid.toNat + 32 ≤ 0x1000 ∧
      slotAddr above + 32 ≤ 0x1000 ∧
      (aboveUnit (.err 0xdead0001)).oracleAnswer (oracleQuery .exp above (aboveUnit (.err 0xdead0001))) =
        .err 0xdead0001 :=
  ⟨.inr ⟨rfl, rfl⟩, above_ready _, by decide, by decide, by decide, rfl⟩

theorem witness_CompletedLabelHasItsTopBitsClear :
    (Instr.clabel = .clabel ∨ Instr.clabel = .clabelx) ∧ Memory.wf (readyUnit ready).mem ∧
      (readyUnit ready).context? = some ready ∧ ready.fault = none ∧
      ∃ t c', exec .clabel (readyUnit ready) = .next t ∧ t.context? = some c' ∧ labelUsable c' := by
  refine ⟨.inl rfl, unit_wf _, rfl, rfl, ?_⟩
  obtain ⟨t, h, hp⟩ := ends_elim (o := exec .clabel (readyUnit ready))
    (p := fun t => t.context? == some ready) (by decide +kernel)
  exact ⟨t, ready, h, by simpa using hp, rfl, rfl⟩

-- both clauses, the second from a run of `CLABEL`
theorem witness_BothLabelCommandsAgreeOnNodeZero :
    (readyUnit ready).context? = some ready ∧ ready.node = 0 ∧
      ∃ t d, exec .clabel (readyUnit ready) = .next t ∧ t.context? = some d := by
  obtain ⟨t, h, hp⟩ := ends_elim (o := exec .clabel (readyUnit ready))
    (p := fun t => t.context? == some ready) (by decide +kernel)
  exact ⟨rfl, rfl, t, ready, h, by simpa using hp⟩

/-- The same identifier and node in another unit, with other operands and another hash state. -/
def aboveElsewhere : Context := { above with lbase := 0x100, dst := 5, cache := 1, hash := none }

-- node 1, the two variants, two places, one answer
theorem witness_LabelIsDeterminedByItsInputs :
    ((Instr.clabel = .clabel ∧ OracleVariant.plain = .plain) ∨ (Instr.clabel = .clabelx ∧ OracleVariant.plain = .exp)) ∧
      ((Instr.clabelx = .clabel ∧ OracleVariant.exp = .plain) ∨ (Instr.clabelx = .clabelx ∧ OracleVariant.exp = .exp)) ∧
      ∃ s s' t t' : State, Memory.wf s.mem ∧ Memory.wf s'.mem ∧ s.context? = some above ∧
        s'.context? = some aboveElsewhere ∧ aboveElsewhere.layer = above.layer ∧ aboveElsewhere.node = above.node ∧
        memRead s'.mem aboveElsewhere.rid.toNat 32 = memRead s.mem above.rid.toNat 32 ∧
        s'.oracleAnswer (oracleQuery .exp aboveElsewhere s') = s.oracleAnswer (oracleQuery .plain above s) ∧
        exec .clabel s = .next t ∧ exec .clabelx s' = .next t' ∧ t.context? = some above ∧
        t'.context? = some aboveElsewhere ∧ labelUsable above ∧ labelUsable aboveElsewhere := by
  refine ⟨.inl ⟨rfl, rfl⟩, .inr ⟨rfl, rfl⟩, ?_⟩
  obtain ⟨t, h, hp⟩ := ends_elim (o := exec .clabel (aboveUnit (.ok [] none)))
    (p := fun t => t.context? == some above) (by decide +kernel)
  obtain ⟨t', h', hp'⟩ := ends_elim
    (o := exec .clabelx { readyUnit aboveElsewhere with answers := [.ok [] none] })
    (p := fun t => t.context? == some aboveElsewhere) (by decide +kernel)
  exact ⟨aboveUnit (.ok [] none), { readyUnit aboveElsewhere with answers := [.ok [] none] }, t, t',
    unit_wf above, unit_wf aboveElsewhere, rfl, rfl, rfl, rfl, rfl, rfl, h, h',
    by simpa using hp, by simpa using hp', ⟨rfl, rfl⟩, ⟨rfl, rfl⟩⟩

-- a failing check and none
theorem witness_ReadyCommandRaisesItsFirstFailingCheck :
    Ready (readyUnit ready) ready ∧ firstFault .expand ready 0x1000 = some (.preExpandLen, 64) ∧
      firstFault .hfinishw ready 0x1000 = none := ⟨ready_unit _ rfl, by decide, by decide⟩

-- a command's fault and an illegal word's
theorem witness_FaultEntryChangesOnlyFaultAndErrinfo :
    (∃ t, step { readyUnit ready with actions := [.cmd 0 0x20] } = .next t ∧
        (readyUnit ready).ctxs[0]? = some ready ∧ ready.fault = none ∧
        t.ctxs[0]? = some { ready with fault := some .preExpandLen, errInfo := 64 }) ∧
      ∃ t, step { readyUnit ready with actions := [.cmd 0 0x99] } = .next t ∧
        t.ctxs[0]? = some { ready with fault := some .illegalCmd, errInfo := 0x99 } :=
  ⟨⟨_, rfl, rfl, rfl, rfl⟩, _, rfl, rfl⟩

theorem witness_OnlyResetClearsAFault :
    ∃ t, step { unit odd 0 [] with actions := [.cmd 0 0x10] } = .next t ∧ (unit odd 0 []).ctxs[0]? = some odd ∧
      odd.fault ≠ none ∧
      ∀ i rest, ({ unit odd 0 [] with actions := [.cmd 0 0x10] } : State).actions ≠ .reset i :: rest :=
  ⟨_, rfl, rfl, by decide, by simp⟩

-- the two results: 0, and 1 with the oracle's error
theorem witness_CompletionWritesTheResultCode :
    (∃ t, exec .hnew (readyUnit ready) = .next t ∧ t.context? = some { ready with hash := some hashNew }) ∧
      ∃ t, exec .clabel (aboveUnit (.err 0xdead0001)) = .next t ∧
        t.context? = some { above with res := .collabErr, errInfo := 0xdead0001 } := by
  refine ⟨⟨_, rfl, rfl⟩, ?_⟩
  obtain ⟨t, h, hp⟩ := ends_elim (o := exec .clabel (aboveUnit (.err 0xdead0001)))
    (p := fun t => t.context? == some { above with res := .collabErr, errInfo := 0xdead0001 }) (by decide +kernel)
  exact ⟨t, h, by simpa using hp⟩

theorem witness_NoCommandWritesAnOperandRegister :
    (∃ t, exec .hnew (readyUnit ready) = .next t) ∧ (readyUnit ready).ctxs[1]? = some Context.reset :=
  ⟨⟨_, rfl⟩, rfl⟩

-- `HNEW` lists no register, so every operand register may differ
theorem witness_UnlistedOperandsHaveNoInfluence :
    (readyUnit ready).context? = some ready ∧ sameStatus ready live ∧ listedOperandsAgree .hnew ready live ∧
      ∃ t, exec .hnew (readyUnit ready) = .next t :=
  ⟨rfl, ⟨rfl, rfl, rfl, rfl⟩, trivial, _, rfl⟩

theorem witness_OtherContextsAreIsolated :
    ([ready, odd, live] : List Context)[(readyUnit ready).current]? = (readyUnit ready).ctxs[(readyUnit ready).current]? ∧
      ∃ t, exec .hnew (readyUnit ready) = .next t := ⟨rfl, _, rfl⟩

theorem witness_CommandFrame :
    (readyUnit ready).context? = some ready ∧ (∃ t, exec .hnew (readyUnit ready) = .next t) ∧
      ¬ inStore (storeRange .hfinish ready) 0xfbf ∧ inStore (storeRange .hfinish ready) 0xfc0 ∧
      inStore (storeRange .hfinish ready) 0xfff ∧ ¬ inStore (storeRange .hfinish ready) 0x1000 :=
  ⟨rfl, ⟨_, rfl⟩, by simp [inStore, storeRange, resultAddr, ready], by simp [inStore, storeRange, resultAddr, ready],
    by simp [inStore, storeRange, resultAddr, ready], by simp [inStore, storeRange, resultAddr, ready]⟩

-- a host write and a command's store
theorem witness_OnlyStoresChangeMemory :
    (∃ t, step { unit live 0 [] with actions := [.mw 0xfff [7]] } = .next t ∧
        readByte t.mem 0xfff ≠ readByte (unit live 0 []).mem 0xfff) ∧
      ∃ t, step { readyUnit ready with actions := [.wr 0 0 0x12] } = .next t ∧
        readByte t.mem 0xfc0 ≠ readByte (readyUnit ready).mem 0xfc0 := by
  refine ⟨⟨_, rfl, by decide⟩, ?_⟩
  obtain ⟨t, h, hp⟩ := ends_elim (o := step { readyUnit ready with actions := [.wr 0 0 0x12] })
    (p := fun t => readByte t.mem 0xfc0 != readByte (readyUnit ready).mem 0xfc0) (by decide +kernel)
  exact ⟨t, h, by simpa using hp⟩

-- the first and the last byte of the range, and the bytes beside it
theorem witness_MemoryReadsWhatWasWritten :
    Memory.wf [(3, 7)] ∧ ([8, 9] : List Byte)[0]? = some 8 ∧ ([8, 9] : List Byte)[1]? = some 9 ∧
      ((2 : Nat) < 3 ∨ 3 + 2 ≤ 2) ∧ ((5 : Nat) < 3 ∨ 3 + 2 ≤ 5) := by decide

theorem witness_CanonicalMemoriesThatReadAlikeAreEqual :
    Memory.wf (memWrite [] 3 [7, 0]) ∧ Memory.wf [(3, 7)] ∧
      ∀ a, readByte (memWrite [] 3 [7, 0]) a = readByte [(3, 7)] a := ⟨by decide, by decide, fun _ => rfl⟩

-- a faulted context, and the two narrow widths at their largest value and one past it
theorem witness_OperandRegistersReadBackWhatWasWritten :
    (unit odd 0 []).ctxs[0]? = some odd ∧ (0xffffffff : Word64).toNat < 2 ^ 32 ∧
      ¬ (0x100000000 : Word64).toNat < 2 ^ 32 ∧ (1 : Word64).toNat < 2 ∧ ¬ (2 : Word64).toNat < 2 := by decide

theorem witness_UnmappedRegistersReadZeroAndIgnoreWrites :
    1 < (unit odd 0 []).ctxs.length ∧ ((0x0C ≤ 0x0C ∧ 0x0C ≤ 0x3F) ∨ 0x43 ≤ 0x0C) ∧
      ((0x0C ≤ 0x3F ∧ 0x3F ≤ 0x3F) ∨ 0x43 ≤ 0x3F) ∧ ((0x0C ≤ 0x43 ∧ 0x43 ≤ 0x3F) ∨ 0x43 ≤ 0x43) ∧
      ¬ ((0x0C ≤ 0x40 ∧ 0x40 ≤ 0x3F) ∨ 0x43 ≤ 0x40) ∧ ¬ ((0x0C ≤ 0x0B ∧ 0x0B ≤ 0x3F) ∨ 0x43 ≤ 0x0B) := by decide

theorem witness_StatusRegisterHasItsFields :
    (unit odd 0 []).ctxs[0]? = some odd ∧ (0xffffffff : Word64).toNat < 2 ^ 32 := by decide

theorem witness_GlobalRegistersHaveTheirBits :
    1 < (unit odd 0 []).ctxs.length ∧ 0x40 ≤ 0x40 ∧ 0x40 ≤ 0x42 ∧ 0x40 ≤ 0x42 ∧ 0x42 ≤ 0x42 := by decide

theorem witness_HostMemoryActionsReadAndWriteMemory :
    Memory.wf (readyUnit ready).mem ∧ 0xffe + ([1, 2] : List Byte).length ≤ (readyUnit ready).memSize ∧
      0x1000 + ([] : List Byte).length ≤ (readyUnit ready).memSize := ⟨unit_wf _, by decide, by decide⟩

theorem witness_ResetLeavesEveryContextRegisterZero : 0 < 1 := by decide

theorem witness_ResetActionResetsTheUnit :
    ({ unit odd 0 [] with actions := [.reset (inputs true false false false false)] } : State).actions =
      .reset (inputs true false false false false) :: [] := rfl

theorem witness_InvariantHoldsAfterReset :
    1 ≤ 1 ∧ 2 ^ 60 ≤ 2 ^ 60 ∧ Memory.wf [(2 ^ 60 - 1, 7)] ∧
      ∀ p ∈ ([(2 ^ 60 - 1, 7)] : Memory), p.1 < 2 ^ 60 := by decide

theorem inv_reset : Invariant State.reset where
  memory := ⟨by decide, by simp [State.reset, State.afterReset]⟩
  parameters := by unfold parametersOk; decide
  hashes := by
    intro c hc hs h
    rw [List.eq_of_mem_replicate hc] at h
    cases h
  backend := .inl rfl
  faults := by
    intro c hc
    rw [List.eq_of_mem_replicate hc]
    trivial

theorem witness_EveryStepKeepsTheInvariant : ∃ t, Invariant State.reset ∧ step State.reset = .next t :=
  ⟨_, inv_reset, rfl⟩

theorem witness_LiveHashStatesStayReachable :
    ∃ t, hashesOk { unit live 0 [] with actions := [.cmd 0 0x10] } ∧
      step { unit live 0 [] with actions := [.cmd 0 0x10] } = .next t := by
  refine ⟨_, fun c hc hs h => ⟨[], ?_⟩, rfl⟩
  simp only [unit, List.mem_cons, List.not_mem_nil, or_false] at hc
  rcases hc with rfl | rfl
  · cases h; exact absorbed_none
  · cases h

theorem witness_ProofStreamHasItsLayout : ([zeros 32, zeros 32] : List (Bytes 32))[0]? = some (zeros 32) ∧
    ([zeros 32, zeros 32] : List (Bytes 32))[1]? = some (zeros 32) := ⟨rfl, rfl⟩

theorem witness_ProofStreamIsInjective :
    ({ parents := [zeros 32], layerIndex := 1, node := 2 } : NodeProof).parents.length =
        ({ parents := [zeros 32], layerIndex := 1, node := 2 } : NodeProof).parents.length ∧
      proofStream (zeros 32) { parents := [zeros 32], layerIndex := 1, node := 2 } =
        proofStream (zeros 32) { parents := [zeros 32], layerIndex := 1, node := 2 } := ⟨rfl, rfl⟩

-- R9: a run is no run of the program before its last host action
theorem test_safe_run_ends_after_the_last_action :
    ¬ safeRun 0 { unit live 0 [] with actions := [.rd 0 0x01] } ∧
      safeRun 1 { unit live 0 [] with actions := [.rd 0 0x01] } := by
  refine ⟨fun ⟨t, h, ha, _⟩ => ?_, _, rfl, rfl, by unfold unfaulted; decide⟩
  cases h
  cases ha

end Sys2Proof.Tests
end

/-! ## The family 10_state: a command's influence and its frame on the contexts -/

namespace Sys2Proof.Machine

/-! ### Agreement of two contexts -/

theorem sameOperands_refl (c : Context) : sameOperands c c :=
  ⟨rfl, rfl, rfl, rfl, rfl, rfl, rfl, rfl, rfl⟩

theorem sameStatus_refl (c : Context) : sameStatus c c :=
  ⟨rfl, rfl, rfl, rfl⟩

theorem listedOperandsAgree_refl (i : Instr) (c : Context) : listedOperandsAgree i c c := by
  cases i <;> simp [listedOperandsAgree]

/-- The operand registers and the rest make up the whole context. -/
theorem eq_of_sameOperands_of_sameStatus {c d e : Context} (hd : sameOperands c d) (he : sameOperands c e)
    (hde : sameStatus d e) : d = e := by
  cases d
  cases e
  simp_all [sameOperands, sameStatus]

/-! ### The same effect on two states that differ in their contexts only -/

/-- Beside the run from `s` to `t` in the executing context `c`, the run to `t'` from the same state with the contexts
`l` and the executing context `d`: both leave the operand registers of the executing context and all other contexts
alone, the two executing contexts end with the same status, and the rest of the two next states is the same
(R21, R25, R26). -/
def SameEffect (s : State) (l : List Context) (c d : Context) (t t' : State) : Prop :=
  ∃ c' d', t.current = s.current ∧ t.ctxs = s.ctxs.set s.current c' ∧ t' = { t with ctxs := l.set s.current d' } ∧
    sameOperands c c' ∧ sameOperands d d' ∧ sameStatus c' d'

section
variable {s : State} {l : List Context} {c d : Context}

/-- Two bodies with the same check have the same effect when they have it on either branch. -/
theorem SameEffect.ite {p : Prop} [Decidable p] {t u t' u' : State} (ht : SameEffect s l c d t t')
    (hu : SameEffect s l c d u u') : SameEffect s l c d (if p then t else u) (if p then t' else u') := by
  split
  · exact ht
  · exact hu

/-- The same effect, and a consultation of the oracle after it. -/
theorem SameEffect.consulted {t t' : State} (h : SameEffect s l c d t t') :
    SameEffect s l c d t.consulted t'.consulted := by
  obtain ⟨c', d', hcur, hctxs, rfl, hcd⟩ := h
  exact ⟨c', d', hcur, hctxs, rfl, hcd⟩

variable (s l)

theorem sameEffect_setContext {c' d' : Context} (hc : sameOperands c c') (hd : sameOperands d d')
    (hcd : sameStatus c' d') : SameEffect s l c d (s.setContext c') (State.setContext { s with ctxs := l } d') :=
  ⟨c', d', rfl, rfl, rfl, hc, hd, hcd⟩

theorem sameEffect_setMem_setContext (m : Memory) {c' d' : Context} (hc : sameOperands c c') (hd : sameOperands d d')
    (hcd : sameStatus c' d') : SameEffect s l c d ((s.setMem m).setContext c')
      ((State.setMem { s with ctxs := l } m).setContext d') :=
  sameEffect_setContext (s.setMem m) l hc hd hcd

variable (hcd : sameStatus c d)
include hcd

/-- A command that does nothing has the same effect on both (R253). -/
theorem sameEffect_unchanged (hc : s.context? = some c) (hd : l[s.current]? = some d) :
    SameEffect s l c d s { s with ctxs := l } := by
  obtain ⟨hlt, rfl⟩ := List.getElem?_eq_some_iff.mp hc
  obtain ⟨hlt', rfl⟩ := List.getElem?_eq_some_iff.mp hd
  exact ⟨_, _, rfl, (List.set_getElem_self hlt).symm, by rw [List.set_getElem_self hlt'],
    sameOperands_refl _, sameOperands_refl _, hcd⟩

theorem sameEffect_enterFault (f : FaultCause) (info : Word64) :
    SameEffect s l c d (enterFault s c f info) (enterFault { s with ctxs := l } d f info) := by
  obtain ⟨hhash, -, hres, -⟩ := hcd
  exact sameEffect_setContext s l (sameOperands_refl c) (sameOperands_refl d) ⟨hhash, rfl, hres, rfl⟩

theorem sameEffect_complete : SameEffect s l c d (complete s c) (complete { s with ctxs := l } d) := by
  obtain ⟨hhash, hfault, -, herr⟩ := hcd
  exact sameEffect_setContext s l (sameOperands_refl c) (sameOperands_refl d) ⟨hhash, hfault, rfl, herr⟩

theorem sameEffect_completeStore (addr : Nat) (bytes : List Byte) :
    SameEffect s l c d (completeStore s c addr bytes) (completeStore { s with ctxs := l } d addr bytes) :=
  sameEffect_complete (s.setMem (memWrite s.mem addr bytes)) l hcd

theorem sameEffect_collaboratorError (e : Word64) (hslot : slotAddr d = slotAddr c) :
    SameEffect s l c d (collaboratorError s c e) (collaboratorError { s with ctxs := l } d e) := by
  obtain ⟨hhash, hfault, -, -⟩ := hcd
  unfold collaboratorError
  rw [hslot]
  exact sameEffect_setMem_setContext s l _ (sameOperands_refl c) (sameOperands_refl d) ⟨hhash, hfault, rfl, rfl⟩

theorem sameStatus_setHash (h : Option HashState) : sameStatus { c with hash := h } { d with hash := h } := by
  obtain ⟨-, hfault, hres, herr⟩ := hcd
  exact ⟨rfl, hfault, hres, herr⟩

theorem sameEffect_complete_setHash (h : Option HashState) : SameEffect s l c d
    (complete s { c with hash := h }) (complete { s with ctxs := l } { d with hash := h }) :=
  sameEffect_complete s l (sameStatus_setHash hcd h)

theorem sameEffect_completeStore_setHash (h : Option HashState) (addr : Nat) (bytes : List Byte) : SameEffect s l c d
    (completeStore s { c with hash := h } addr bytes)
    (completeStore { s with ctxs := l } { d with hash := h } addr bytes) :=
  sameEffect_completeStore s l (sameStatus_setHash hcd h) addr bytes

/-! ### The bodies read only the listed registers

Once the listed registers of `d` are replaced by `c`'s, both bodies make the same checks, in the same order. -/

theorem hinputBody_sameEffect (hlisted : listedOperandsAgree .hinput c d) :
    SameEffect s l c d (hinputBody c s) (hinputBody d { s with ctxs := l }) := by
  have fault := sameEffect_enterFault s l hcd
  have hhash : d.hash = c.hash := hcd.1
  unfold hinputBody
  rw [hhash]
  cases d
  obtain ⟨rfl, rfl⟩ := hlisted
  cases c.hash with
  | none => exact fault _ _
  | some hs => exact .ite (fault _ _) (.ite (fault _ _) (sameEffect_complete_setHash s l hcd _))

theorem hfinishBody_sameEffect (hlisted : listedOperandsAgree .hfinish c d) :
    SameEffect s l c d (hfinishBody c s) (hfinishBody d { s with ctxs := l }) := by
  have fault := sameEffect_enterFault s l hcd
  have hhash : d.hash = c.hash := hcd.1
  unfold hfinishBody
  rw [hhash]
  cases d
  obtain rfl := hlisted
  cases c.hash with
  | none => exact fault _ _
  | some hs => exact .ite (fault _ _) (sameEffect_completeStore_setHash s l hcd _ _ _)

theorem hfinishwBody_sameEffect (hlisted : listedOperandsAgree .hfinishw c d) :
    SameEffect s l c d (hfinishwBody c s) (hfinishwBody d { s with ctxs := l }) := by
  have fault := sameEffect_enterFault s l hcd
  have hhash : d.hash = c.hash := hcd.1
  unfold hfinishwBody
  rw [hhash]
  cases d
  obtain ⟨rfl, rfl, rfl⟩ := hlisted
  cases c.hash with
  | none => exact fault _ _
  | some hs =>
    exact .ite (fault _ _) (.ite (fault _ _) (.ite (fault _ _) (sameEffect_completeStore_setHash s l hcd _ _ _)))

theorem expandBody_sameEffect (hlisted : listedOperandsAgree .expand c d) :
    SameEffect s l c d (expandBody c s) (expandBody d { s with ctxs := l }) := by
  have fault := sameEffect_enterFault s l hcd
  cases d
  obtain ⟨rfl, rfl, rfl⟩ := hlisted
  exact .ite (fault _ _) (.ite (fault _ _) (.ite (fault _ _) (sameEffect_completeStore s l hcd _ _)))

/-- Both label commands: beside the registers both list, the oracle's question is the same (R203, R204). -/
theorem deriveLabel_sameEffect (v : OracleVariant) (hlisted : listedOperandsAgree .clabel c d)
    (hquery : oracleQuery v d { s with ctxs := l } = oracleQuery v c s) :
    SameEffect s l c d (deriveLabel v c s) (deriveLabel v d { s with ctxs := l }) := by
  obtain ⟨hrid, hlbase, hlayer, hnode, -⟩ := hlisted
  have hslot : slotAddr d = slotAddr c := by rw [slotAddr, slotAddr, hlbase, hnode]
  have hanswer : State.oracleAnswer { s with ctxs := l } = s.oracleAnswer := rfl
  have fault := sameEffect_enterFault s l hcd
  simp only [deriveLabel, hrid, hlbase, hlayer, hnode, hslot, hquery, hanswer]
  refine .ite (fault _ _) (.ite (fault _ _) (.ite (sameEffect_completeStore s l hcd _ _) ?_))
  cases s.oracleAnswer (oracleQuery v c s) with
  | err e => exact (sameEffect_collaboratorError s l hcd e hslot).consulted
  | ok blocks tail => exact (sameEffect_completeStore s l hcd _ _).consulted

/-- The body of a command has the same effect in two contexts that agree in the listed registers and in everything
that is no operand register, whatever the other contexts are (R21, R25, R26). -/
theorem bodyOf_sameEffect {i : Instr} (hlisted : listedOperandsAgree i c d) :
    SameEffect s l c d (bodyOf i c s) (bodyOf i d { s with ctxs := l }) := by
  cases i with
  | bsel => exact sameEffect_complete s l hcd
  | hnew => exact sameEffect_complete_setHash s l hcd _
  | hinput => exact hinputBody_sameEffect s l hcd hlisted
  | hfinish => exact hfinishBody_sameEffect s l hcd hlisted
  | hfinishw => exact hfinishwBody_sameEffect s l hcd hlisted
  | expand => exact expandBody_sameEffect s l hcd hlisted
  | clabel =>
    obtain ⟨hrid, hlbase, hlayer, hnode, hcache⟩ := hlisted
    refine deriveLabel_sameEffect s l hcd .plain ⟨hrid, hlbase, hlayer, hnode, hcache⟩ ?_
    simp only [oracleQuery, hnode, hlbase, hcache]
  | clabelx =>
    obtain ⟨hrid, hlbase, hxbase, hlayer, hnode, hcache⟩ := hlisted
    refine deriveLabel_sameEffect s l hcd .exp ⟨hrid, hlbase, hlayer, hnode, hcache⟩ ?_
    simp only [oracleQuery, hnode, hlbase, hxbase, hcache]

/-- A command answers alike, with the same effect, in two contexts that agree in the listed registers and in
everything that is no operand register, whatever the other contexts are (R21, R25, R26). -/
theorem exec_sameEffect {i : Instr} {t : State} (h : exec i s = .next t) (hc : s.context? = some c)
    (hd : l[s.current]? = some d) (hlisted : listedOperandsAgree i c d) :
    ∃ t', exec i { s with ctxs := l } = .next t' ∧ SameEffect s l c d t t' := by
  have ⟨_, hfault, _⟩ := hcd
  have hd' : State.context? { s with ctxs := l } = some d := hd
  obtain ⟨c₀, hc₀, hcases⟩ := exec_cases h
  obtain rfl : c₀ = c := Option.some.inj (hc₀.symm.trans hc)
  rw [exec_eq]
  obtain ⟨hf, rfl⟩ | ⟨hf, e, he, rfl⟩ | ⟨⟨-, hf, he⟩, rfl⟩ := hcases
  · exact ⟨_, runCommand_faulted hd' (hfault ▸ hf) _, sameEffect_unchanged _ l hcd hc hd⟩
  · exact ⟨_, runCommand_config hd' (hfault.trans hf) he _, sameEffect_enterFault (ensureBackend s) l hcd _ _⟩
  · exact ⟨_, runCommand_ready ⟨hd', hfault.trans hf, he⟩ _, bodyOf_sameEffect (ensureBackend s) l hcd hlisted⟩

end

/-- A command replaces the executing context by one with the same operand registers, and no other (R21, R25). -/
theorem exec_ctxs {i : Instr} {s t : State} (h : exec i s = .next t) :
    ∃ c c', s.context? = some c ∧ sameOperands c c' ∧ t.ctxs = s.ctxs.set s.current c' := by
  obtain ⟨c, hc, -⟩ := exec_cases h
  obtain ⟨-, -, c', -, -, hctxs, -, hops, -⟩ :=
    exec_sameEffect s s.ctxs (sameStatus_refl c) h hc hc (listedOperandsAgree_refl i c)
  exact ⟨c, c', hc, hops, hctxs⟩

/-! ### Register numbers and command issue -/

/-- The numbers between and above the registers name none (R43). -/
theorem regOfNumber_unmapped {n : Nat} (h : (0x0C ≤ n ∧ n ≤ 0x3F) ∨ 0x43 ≤ n) : regOfNumber n = .unmapped := by
  unfold regOfNumber
  split
  case h_16 => rfl
  all_goals omega

/-- A word that decodes to a command runs it in the context it is issued to (R90). -/
theorem issue_command {w : Word32} {i : Instr} (h : decode w = .command i) (run : Instr → State → StepOutcome)
    (k : Nat) (s : State) : issue run k w s = run i { s with current := k } := by
  rw [issue, h]

section
variable {s : State} {k : Nat} (hk : k < s.ctxs.length)
include hk

/-- A write of `CMD` that fits it issues the word (R27). -/
theorem hostWrite_cmd (run : Instr → State → StepOutcome) {v : Word64} (hv : v.toNat < 2 ^ 32) :
    hostWrite run k (numberOf .cmd) v s = issue run k (v.setWidth 32) s := by
  have hfits : v.toNat < 2 ^ widthOf .cmd := hv
  simp only [hostWrite, List.getElem?_eq_getElem hk, regOfNumber_numberOf, hfits, if_true]

theorem hostWrite_unmapped (run : Instr → State → StepOutcome) {n : Nat} (hn : regOfNumber n = .unmapped)
    (v : Word64) : hostWrite run k n v s = .next s := by
  simp [hostWrite, List.getElem?_eq_getElem hk, hn]

/-- `CMD` holds no value (R27). -/
theorem hostRead_cmd : hostRead k (numberOf .cmd) s = .next (s.reply (.register 0)) := by
  simp [hostRead, List.getElem?_eq_getElem hk, regOfNumber_numberOf, readRegister]

theorem hostRead_unmapped {n : Nat} (hn : regOfNumber n = .unmapped) :
    hostRead k n s = .next (s.reply (.register 0)) := by
  simp [hostRead, List.getElem?_eq_getElem hk, hn]

end

/-! ### The obligations -/

/-- Settles O41: a command only replaces the executing context, by one with the same operand registers. -/
theorem noCommandWritesAnOperandRegister : Obligations.NoCommandWritesAnOperandRegister := by
  intro i s t k c h hc
  obtain ⟨e, e', he, hops, hctxs⟩ := exec_ctxs h
  rw [hctxs]
  by_cases hk : k = s.current
  · subst hk
    obtain rfl : e = c := Option.some.inj (he.symm.trans hc)
    exact ⟨e', set_context? he e', hops⟩
  · exact ⟨c, by rw [List.getElem?_set_ne (Ne.symm hk), hc], sameOperands_refl c⟩

/-- Settles O42: the run with the executing context replaced has the same effect. -/
theorem unlistedOperandsHaveNoInfluence : Obligations.UnlistedOperandsHaveNoInfluence := by
  intro i s t c d hc hcd hlisted h
  have hd : (s.setContext d).context? = some d := setContext_context? hc d
  obtain ⟨t', ht', c', d', hcur, hctxs, rfl, -, hops, hstatus⟩ := exec_sameEffect s _ hcd h hc hd hlisted
  refine ⟨_, c', d', ht', ?_, ?_, hstatus, hops, rfl, rfl, rfl, rfl⟩
  · rw [State.context?, hcur, hctxs]
    exact set_context? hc c'
  · rw [State.context?, hcur]
    exact set_context? hd d'

/-- Settles O43: the run with other contexts beside the same executing one has the same effect. -/
theorem otherContextsAreIsolated : Obligations.OtherContextsAreIsolated := by
  intro i s t others hothers h
  obtain ⟨c, hc, -⟩ := exec_cases h
  have hd : State.context? { s with ctxs := others } = some c := hothers.trans hc
  obtain ⟨t', ht', c', d', hcur, hctxs, rfl, hopsc, hopsd, hstatus⟩ :=
    exec_sameEffect s others (sameStatus_refl c) h hc hd (listedOperandsAgree_refl i c)
  obtain rfl : c' = d' := eq_of_sameOperands_of_sameStatus hopsc hopsd hstatus
  refine ⟨fun j hj => ?_, _, ht', ?_, fun j hj => List.getElem?_set_ne (Ne.symm hj), rfl, rfl, rfl, rfl⟩
  · rw [hctxs, List.getElem?_set_ne (Ne.symm hj)]
  · rw [State.context?, State.context?, hcur, hctxs, set_context? hc]
    exact set_context? hd c'

/-- Settles O5: number 0x00 is `CMD`'s, whose write issues the word and whose read is 0. -/
theorem writeOfCmdRegisterIssuesTheWord : Obligations.WriteOfCmdRegisterIssuesTheWord := by
  intro s k rest hk
  refine ⟨fun v hv => ?_, hostRead_cmd (s := { s with actions := rest }) hk⟩
  have hissue : step { s with actions := .wr k 0x00 v :: rest } =
      issue exec k (v.setWidth 32) { s with actions := rest } :=
    hostWrite_cmd (s := { s with actions := rest }) hk exec hv
  exact ⟨hissue, fun i hi => hissue.trans (issue_command hi exec k _)⟩

/-- Settles O49: such a number names no register. -/
theorem unmappedRegistersReadZeroAndIgnoreWrites : Obligations.UnmappedRegistersReadZeroAndIgnoreWrites := by
  intro s k n v rest hk hn
  have hreg : regOfNumber n = .unmapped := regOfNumber_unmapped hn
  exact ⟨hostWrite_unmapped (s := { s with actions := rest }) hk exec hreg v,
    hostRead_unmapped (s := { s with actions := rest }) hk hreg⟩

/-- Every register of a context after reset reads 0 (R42). -/
theorem readRegister_reset (r : CtxReg) : readRegister Context.reset r = 0 := by
  cases r <;> rfl

/-- `BACKEND` reads 0 before the first selection (R38, R42). -/
theorem readGlobal_backend_unselected {s : State} (h : s.backend = .unselected) : readGlobal s .backend = 0 := by
  rw [readGlobal, h]
  decide

/-- Settles O53: every context after reset is `Context.reset`. -/
theorem resetLeavesEveryContextRegisterZero : Obligations.ResetLeavesEveryContextRegisterZero := by
  intro nctx size k inputs mem hk
  have hctx : (State.afterReset nctx size inputs mem).ctxs[k]? = some Context.reset :=
    List.getElem?_replicate_of_lt hk
  exact ⟨⟨Context.reset, hctx, readRegister_reset, rfl, rfl, rfl⟩, readGlobal_backend_unselected rfl, rfl, rfl⟩

end Sys2Proof.Machine

/-! ## The family 20_memory: reads of what was written -/

namespace Sys2Proof.Machine

/-- Settles O46: the write's reading laws inside its range, outside it, and over the whole of it. -/
theorem memoryReadsWhatWasWritten : Obligations.MemoryReadsWhatWasWritten := by
  intro m addr bytes hwf
  refine ⟨fun i b hib => ?_, fun _ => readByte_memWrite_outside m addr bytes, readList_memWrite hwf addr bytes⟩
  obtain ⟨hi, rfl⟩ := List.getElem?_eq_some_iff.mp hib
  exact readByte_memWrite_inside hwf addr bytes hi

end Sys2Proof.Machine

/-! ## The family 30_encoding: the opcode map and illegal words -/

namespace Sys2Proof

/-! ### The decoder against the encoder -/

/-- Every row of the opcode map compares the whole word with its command's word (R91, R95). -/
theorem opcodeMap_row : ∀ r ∈ opcodeMap, r.mask = 0xffffffff ∧ r.pattern = encode r.instr := by
  decide

theorem decode_encode (i : Instr) : decode (encode i) = .command i := by
  cases i <;> decide

/-- The decoder is total, and keeps the word it finds illegal (R97). -/
theorem decode_illegal_or_command (w : Word32) : decode w = .illegal w ∨ ∃ i, decode w = .command i := by
  unfold decode
  split
  · exact .inr ⟨_, rfl⟩
  · exact .inl rfl

/-- The row found is one whose word is `w`. -/
theorem eq_encode_of_decode {w : Word32} {i : Instr} (h : decode w = .command i) : w = encode i := by
  unfold decode at h
  split at h
  next r hfind =>
    obtain rfl : r.instr = i := Decoded.command.inj h
    obtain ⟨hmask, hpattern⟩ := opcodeMap_row r (List.mem_of_find?_eq_some hfind)
    have hmatch := List.find?_some hfind
    rwa [hmask, fullMask, hpattern, beq_iff_eq] at hmatch
  next => cases h

theorem decode_eq_command_iff {w : Word32} {i : Instr} : decode w = .command i ↔ w = encode i :=
  ⟨eq_encode_of_decode, fun h => h ▸ decode_encode i⟩

/-- The `match` column of the opcode map holds the words of the commands (R95). -/
theorem mem_patterns_iff {w : Word32} : w ∈ opcodeMap.map (·.pattern) ↔ ∃ i, decode w = .command i := by
  constructor
  · intro h
    obtain ⟨r, hr, rfl⟩ := List.mem_map.mp h
    exact ⟨r.instr, decode_eq_command_iff.mpr (opcodeMap_row r hr).2⟩
  · rintro ⟨i, h⟩
    obtain rfl := eq_encode_of_decode h
    cases i <;> decide

theorem decode_eq_illegal_iff {w : Word32} : decode w = .illegal w ↔ w ∉ opcodeMap.map (·.pattern) := by
  rw [mem_patterns_iff]
  constructor
  · rintro h ⟨i, hi⟩
    cases h.symm.trans hi
  · exact (decode_illegal_or_command w).resolve_right

/-- Settles O3: a word decodes to a command exactly when it is the command's word. -/
theorem wordDecodesByTheOpcodeMap : Obligations.WordDecodesByTheOpcodeMap := by
  intro w
  exact ⟨decode_eq_command_iff, decode_eq_command_iff, decode_eq_command_iff, decode_eq_command_iff,
    decode_eq_command_iff, decode_eq_command_iff, decode_eq_command_iff, decode_eq_command_iff,
    fun hw i hi => hw (mem_patterns_iff.mpr ⟨i, hi⟩)⟩

end Sys2Proof

namespace Sys2Proof.Machine

/-! ### Issuing an illegal word -/

/-- An illegal word raises `ILLEGAL_CMD` in a context that is not faulted (R97, R251). -/
theorem runIllegal_unfaulted {s : State} {c : Context} (hc : s.context? = some c) (hf : c.fault = none)
    (w : Word32) : runIllegal s w = .next (enterFault s c .illegalCmd (w.setWidth 64)) := by
  simp [runIllegal, hc, hf]

/-- A word that decodes to no command is run as illegal in the context it is issued to (R97). -/
theorem issue_illegal {w : Word32} (h : decode w = .illegal w) (run : Instr → State → StepOutcome)
    (k : Nat) (s : State) : issue run k w s = runIllegal { s with current := k } w := by
  rw [issue, h]

/-- A step with a word written to `CMD` next issues the word (R90, R103). -/
theorem step_cmd {s : State} {k : Nat} {w : Word32} {rest : List HostAction} (h : s.actions = .cmd k w :: rest) :
    step s = issue exec k w { s with actions := rest } := by
  rw [step, h]
  rfl

/-- Settles O6: the illegal words are those outside the `match` column, and issuing one is the fault entry alone. -/
theorem illegalWordFaultsAndChangesNothingElse : Obligations.IllegalWordFaultsAndChangesNothingElse := by
  refine ⟨fun w => ⟨decode_eq_illegal_iff, decode_illegal_or_command w⟩, ?_⟩
  intro s k w rest c hact hw hc hf
  have hctx : State.context? { s with actions := rest, current := k } = some c := hc
  rw [step_cmd hact, issue_illegal hw, runIllegal_unfaulted hctx hf]
  rfl

end Sys2Proof.Machine

/-! ## The family 40_backend: the selection, its memo, and the compression function -/

namespace Sys2Proof.Machine

/-! ### The selection and its memo -/

/-- Settles O9: each result by the chain of R121, `ARCH_OK` first, then the two features, then the CPU's. -/
theorem selectGivesEachResultExactlyOn : Obligations.SelectGivesEachResultExactlyOn := by
  rintro ⟨archOk, cpuAvx, cpuAvx2, featAvx, featAvx2⟩
  cases archOk with
  | false => simp [select]
  | true =>
    cases featAvx2 with
    | true =>
      cases featAvx with
      | true => simp [select]
      | false => cases cpuAvx2 <;> simp [select]
    | false =>
      cases featAvx with
      | true => cases cpuAvx <;> simp [select]
      | false => cases cpuAvx2 <;> cases cpuAvx <;> simp [select]

/-- The failed selections are those with a configuration error (R38). -/
theorem error?_eq_some_iff {b : Backend} {e : CfgError} : b.error? = some e ↔ b = .failed e := by
  cases b <;> simp [Backend.error?]

/-- A failed selection raises its fault, as one record update (R122, R251, R252). -/
theorem exec_config {i : Instr} {s : State} {c : Context} {e : CfgError} (hc : s.context? = some c)
    (hf : c.fault = none) (he : (ensuredBackend s).error? = some e) :
    exec i s = .next (faultedState s c (.cfg e) 0) := by
  rw [exec_eq, runCommand_config hc hf he]
  rfl

/-- A command of an unfaulted context leaves in `BACKEND` what `EnsureBackend` put there (R122). -/
theorem exec_unfaulted_backend (i : Instr) {s : State} {c : Context} (hc : s.context? = some c)
    (hf : c.fault = none) : ∃ t, exec i s = .next t ∧ t.backend = ensuredBackend s := by
  cases he : (ensuredBackend s).error? with
  | none => exact ⟨_, exec_ready ⟨hc, hf, he⟩ i, bodyOf_backend i c _⟩
  | some e => exact ⟨_, exec_config hc hf he, rfl⟩

/-- Settles O10: `BACKEND` is what `EnsureBackend` put there, and a failed one raises its fault. -/
theorem ensureBackendSelectsOnceAndFaultsWhenFailed :
    Obligations.EnsureBackendSelectsOnceAndFaultsWhenFailed := by
  refine ⟨⟨rfl, rfl, rfl, rfl, fun e => ⟨rfl, rfl, rfl⟩, rfl, rfl, rfl⟩, fun i s c hc hf => ?_⟩
  rw [← ensuredBackend_eq]
  refine ⟨exec_unfaulted_backend i hc hf, fun e he => ?_⟩
  rw [exec_config hc hf (error?_eq_some_iff.mpr he), faultedState, he]

/-- Settles O13: the three cases of the order of events, with a body that only completes. -/
theorem bselSelectsAndCompletes : Obligations.BselSelectsAndCompletes := by
  refine ⟨rfl, fun s c hc => ⟨fun hf => ?_, fun e hf he => exec_config hc hf he, fun hf he => ?_⟩⟩
  · rw [exec_eq, runCommand_faulted hc hf]
  · rw [exec_ready ⟨hc, hf, he⟩, ← ensuredBackend_eq]
    rfl

/-! ### No influence of the selected backend -/

/-- Replace what `BACKEND` holds. -/
def State.setBackend (s : State) (b : Backend) : State :=
  { s with backend := b }

theorem ensureBackend_eq_setBackend (s : State) : ensureBackend s = s.setBackend (ensuredBackend s) := rfl

section
variable (s : State) (b : Backend) (c : Context)

theorem setBackend_setBackend (b' : Backend) : (s.setBackend b).setBackend b' = s.setBackend b' := rfl

theorem setBackend_mem : (s.setBackend b).mem = s.mem := rfl

theorem enterFault_setBackend (f : FaultCause) (info : Word64) :
    enterFault (s.setBackend b) c f info = (enterFault s c f info).setBackend b := rfl

theorem complete_setBackend : complete (s.setBackend b) c = (complete s c).setBackend b := rfl

theorem completeStore_setBackend (addr : Nat) (bytes : List Byte) :
    completeStore (s.setBackend b) c addr bytes = (completeStore s c addr bytes).setBackend b := rfl

theorem collaboratorError_setBackend (e : Word64) :
    collaboratorError (s.setBackend b) c e = (collaboratorError s c e).setBackend b := by
  simp only [collaboratorError_eq, State.setBackend]

theorem consulted_setBackend : (s.setBackend b).consulted = s.consulted.setBackend b := rfl

/-- Where two branches differ in `BACKEND` only, so does the check between them. -/
theorem ite_setBackend {p : Prop} [Decidable p] {t u t' u' : State} {b : Backend} (ht : t' = t.setBackend b)
    (hu : u' = u.setBackend b) : (if p then t' else u') = (if p then t else u).setBackend b := by
  rw [ht, hu, apply_ite (State.setBackend · b)]

theorem hinputBody_setBackend : hinputBody c (s.setBackend b) = (hinputBody c s).setBackend b := by
  have fault := enterFault_setBackend s b c
  unfold hinputBody
  cases c.hash with
  | none => exact fault _ _
  | some hs => exact ite_setBackend (fault _ _) (ite_setBackend (fault _ _) (complete_setBackend s b _))

theorem hfinishBody_setBackend : hfinishBody c (s.setBackend b) = (hfinishBody c s).setBackend b := by
  have fault := enterFault_setBackend s b c
  unfold hfinishBody
  cases c.hash with
  | none => exact fault _ _
  | some hs => exact ite_setBackend (fault _ _) (completeStore_setBackend s b _ _ _)

theorem hfinishwBody_setBackend : hfinishwBody c (s.setBackend b) = (hfinishwBody c s).setBackend b := by
  have fault := enterFault_setBackend s b c
  unfold hfinishwBody
  cases c.hash with
  | none => exact fault _ _
  | some hs =>
    exact ite_setBackend (fault _ _) (ite_setBackend (fault _ _) (ite_setBackend (fault _ _)
      (completeStore_setBackend s b _ _ _)))

theorem expandBody_setBackend : expandBody c (s.setBackend b) = (expandBody c s).setBackend b := by
  have fault := enterFault_setBackend s b c
  exact ite_setBackend (fault _ _) (ite_setBackend (fault _ _) (ite_setBackend (fault _ _)
    (completeStore_setBackend s b _ _ _)))

/-- The oracle's question and its answer do not name the backend (R206). -/
theorem oracleAnswer_setBackend (v : OracleVariant) :
    (s.setBackend b).oracleAnswer (oracleQuery v c (s.setBackend b)) = s.oracleAnswer (oracleQuery v c s) := rfl

theorem deriveLabel_setBackend (v : OracleVariant) :
    deriveLabel v c (s.setBackend b) = (deriveLabel v c s).setBackend b := by
  have fault := enterFault_setBackend s b c
  simp only [deriveLabel, oracleAnswer_setBackend]
  refine ite_setBackend (fault _ _) (ite_setBackend (fault _ _) (ite_setBackend
    (completeStore_setBackend s b _ _ _) ?_))
  cases s.oracleAnswer (oracleQuery v c s) with
  | err e => simp only [collaboratorError_setBackend, consulted_setBackend]
  | ok blocks tail => simp only [setBackend_mem, completeStore_setBackend, consulted_setBackend]

/-- The body of a command neither reads nor writes `BACKEND` (R128). -/
theorem bodyOf_setBackend (i : Instr) : bodyOf i c (s.setBackend b) = (bodyOf i c s).setBackend b := by
  cases i with
  | bsel => exact complete_setBackend s b c
  | hnew => exact complete_setBackend s b _
  | hinput => exact hinputBody_setBackend s b c
  | hfinish => exact hfinishBody_setBackend s b c
  | hfinishw => exact hfinishwBody_setBackend s b c
  | expand => exact expandBody_setBackend s b c
  | clabel => exact deriveLabel_setBackend s b c .plain
  | clabelx => exact deriveLabel_setBackend s b c .exp

end

/-- The memo of one of the three backends stands, and is no failure (R122). -/
theorem ensuredBackend_of_selected {b : Backend} (hb : b ∈ [Backend.portable, .avx, .avx2]) (s : State) :
    ensuredBackend (s.setBackend b) = b ∧ b.error? = none := by
  simp only [List.mem_cons, List.not_mem_nil, or_false] at hb
  obtain rfl | rfl | rfl := hb <;> exact ⟨rfl, rfl⟩

/-- With one of the three backends selected a command of an unfaulted context runs its body, and the backend is
only carried along (R128). -/
theorem exec_of_selected {b : Backend} (hb : b ∈ [Backend.portable, .avx, .avx2]) (i : Instr) {s : State}
    {c : Context} (hc : s.context? = some c) (hf : c.fault = none) :
    exec i (s.setBackend b) = .next ((bodyOf i c s).setBackend b) := by
  obtain ⟨hkept, hok⟩ := ensuredBackend_of_selected hb s
  have hready : Ready (s.setBackend b) c := ⟨hc, hf, by rw [hkept, hok]⟩
  rw [exec_ready hready, ensureBackend_eq_setBackend, hkept, bodyOf_setBackend, bodyOf_setBackend,
    setBackend_setBackend]

/-- Settles O12: a faulted context does nothing with either backend; any other runs the same body. -/
theorem selectedBackendHasNoInfluence : Obligations.SelectedBackendHasNoInfluence := by
  intro i s t b b' hb hb' h
  change exec i (s.setBackend b) = .next t at h
  obtain ⟨c, hc, -⟩ := exec_cases h
  by_cases hf : c.fault = none
  · obtain rfl := Host.Outcome.next.inj ((exec_of_selected (s := s) hb i hc hf).symm.trans h)
    exact ⟨rfl, exec_of_selected hb' i hc hf⟩
  · have hfaulted (d : Backend) : exec i (s.setBackend d) = .next (s.setBackend d) := by
      rw [exec_eq, runCommand_faulted (s := s.setBackend d) hc hf]
    obtain rfl := Host.Outcome.next.inj ((hfaulted b).symm.trans h)
    exact ⟨rfl, hfaulted b'⟩

/-! ### The message schedule and the compression fold -/

theorem beWords_length (n : Nat) (l : List Byte) : (beWords n l).length = n := by
  induction n generalizing l with
  | zero => rfl
  | succ n ih => simp [beWords, ih]

/-- Word `t` is made of bytes `8t` to `8t+7` (R130). -/
theorem beWords_getElem? {n t : Nat} (ht : t < n) (l : List Byte) :
    (beWords n l)[t]? = some (fromBe64 ((l.drop (8 * t)).take 8)) := by
  induction n generalizing t l with
  | zero => omega
  | succ n ih =>
    cases t with
    | zero => rfl
    | succ t =>
      rw [beWords, List.getElem?_cons_succ, ih (Nat.lt_of_succ_lt_succ ht), List.drop_drop, Nat.mul_succ, Nat.add_comm]

/-- The newest word of the schedule is made from the words before it (R134). -/
theorem extendSchedule_succ (n : Nat) (ws : List Word64) :
    extendSchedule (n + 1) ws = scheduleWord (extendSchedule n ws) :: extendSchedule n ws := by
  induction n generalizing ws with
  | zero => rfl
  | succ n ih => exact ih _

theorem extendSchedule_length (n : Nat) (ws : List Word64) :
    (extendSchedule n ws).length = n + ws.length := by
  induction n with
  | zero => simp [extendSchedule]
  | succ n ih => rw [extendSchedule_succ, List.length_cons, ih, Nat.succ_add]

/-- Further steps keep the words there are, behind the new ones. -/
theorem extendSchedule_add_getElem? (n k i : Nat) (ws : List Word64) :
    (extendSchedule (n + k) ws)[k + i]? = (extendSchedule n ws)[i]? := by
  induction k with
  | zero => rw [Nat.add_zero, Nat.zero_add]
  | succ k ih => rw [← Nat.add_assoc, extendSchedule_succ, Nat.succ_add, List.getElem?_cons_succ, ih]

/-- The words `W[0..15+n]` of a SHA block, the newest first (R134). -/
def newestFirstSchedule (m : Bytes 128) (n : Nat) : List Word64 :=
  extendSchedule n (beWords 16 m.data).reverse

theorem newestFirstSchedule_length (m : Bytes 128) (n : Nat) : (newestFirstSchedule m n).length = n + 16 := by
  rw [newestFirstSchedule, extendSchedule_length, List.length_reverse, beWords_length]

theorem messageSchedule_eq (m : Bytes 128) : messageSchedule m = (newestFirstSchedule m 64).reverse := rfl

/-- Word `i` of the partial schedule of `n + 16` words is `W[15+n-i]`. -/
theorem messageSchedule_getElem? (m : Bytes 128) {n i : Nat} (hn : n ≤ 64) (hi : i < n + 16) :
    (messageSchedule m)[n + 15 - i]? = (newestFirstSchedule m n)[i]? := by
  obtain ⟨k, hk⟩ := Nat.exists_eq_add_of_le hn
  have hlen := newestFirstSchedule_length m 64
  have hpos : 64 + 16 - 1 - (n + 15 - i) = k + i := by omega
  rw [messageSchedule_eq, List.getElem?_reverse (by omega), hlen, hpos, hk]
  exact extendSchedule_add_getElem? n k i _

/-- Word `i` of the partial schedule as `scheduleWord` reads it. -/
theorem messageSchedule_getElem?_getD (m : Bytes 128) {n i : Nat} (hn : n ≤ 64) (hi : i < n + 16) :
    (messageSchedule m)[n + 15 - i]? = some ((newestFirstSchedule m n).getD i 0) := by
  have hlt : i < (newestFirstSchedule m n).length := by rwa [newestFirstSchedule_length]
  rw [messageSchedule_getElem? m hn hi, List.getElem?_eq_getElem hlt, List.getD_eq_getElem _ _ hlt]

/-- The first sixteen words are the block's (R130). -/
theorem messageSchedule_message (m : Bytes 128) {t : Nat} (ht : t < 16) :
    (messageSchedule m)[t]? = some (fromBe64 ((m.data.drop (8 * t)).take 8)) := by
  have hword := messageSchedule_getElem? m (n := 0) (i := 15 - t) (by omega) (by omega)
  have hpos : 0 + 15 - (15 - t) = t := by omega
  have hpos' : 16 - 1 - (15 - t) = t := by omega
  have hlen := beWords_length 16 m.data
  rw [hpos, newestFirstSchedule, extendSchedule, List.getElem?_reverse (by omega), hlen, hpos',
    beWords_getElem? ht] at hword
  exact hword

/-- The word after `n + 16` words is made from these (R134). -/
theorem messageSchedule_next (m : Bytes 128) {n : Nat} (hn : n < 64) :
    (messageSchedule m)[n + 16]? = some (scheduleWord (newestFirstSchedule m n)) := by
  have hword := messageSchedule_getElem? m (n := n + 1) (i := 0) hn (by omega)
  have hpos : n + 1 + 15 - 0 = n + 16 := by omega
  rw [hpos, newestFirstSchedule, extendSchedule_succ] at hword
  exact hword

/-- Settles O14: word `t` is made by `scheduleWord` from the words before it, the newest first. -/
theorem messageScheduleFollowsTheRecurrence : Obligations.MessageScheduleFollowsTheRecurrence := by
  refine fun m => ⟨?_, fun t ht => messageSchedule_message m ht, fun t ht ht' => ?_⟩
  · rw [messageSchedule_eq, List.length_reverse, newestFirstSchedule_length]
  · obtain ⟨n, rfl⟩ := Nat.exists_eq_add_of_le' ht
    have hearlier {i : Nat} (hi : i < 16) := messageSchedule_getElem?_getD m (n := n) (i := i) (by omega) (by omega)
    exact ⟨_, _, _, _, hearlier (i := 1) (by omega), hearlier (i := 6) (by omega), hearlier (i := 14) (by omega),
      hearlier (i := 15) (by omega), messageSchedule_next m (by omega)⟩

/-- `Compress` of a concatenation absorbs its left part first (R125). -/
theorem compress_append (h : Chain) (bs cs : List BlockPair) :
    compress h (bs ++ cs) = compress (compress h bs) cs :=
  List.foldl_append

/-- Settles O15: `Compress` is the fold of `Compress1024`. -/
theorem compressFoldsOverPairs : Obligations.CompressFoldsOverPairs := by
  intro h b0 b1 bs cs
  exact ⟨rfl, rfl, compress_append h bs cs⟩

end Sys2Proof.Machine

/-! ## The family 41_streaming_hash: the length counter, the standard digest, and the streaming hash commands -/

namespace Sys2Proof.Machine

/-! ### The length counter -/

/-- The two words of a count of bits, modulo `2^128` (R31). -/
def counterWords (n : Nat) : Word64 × Word64 :=
  (BitVec.ofNat 64 (n / 2 ^ 64), BitVec.ofNat 64 n)

/-- Settles O16: the carry out of the low word is the quotient of the low sum by `2^64`. -/
theorem addOneTwentyEightCarriesIntoTheHighWord : Obligations.AddOneTwentyEightCarriesIntoTheHighWord := by
  intro hi lo delta hd
  have hlo := lo.isLt
  have low : (add128 hi lo delta).2.toNat = (lo.toNat + delta) % 2 ^ 64 := by simp [add128]
  have high : (add128 hi lo delta).1.toNat = (hi.toNat + (lo.toNat + delta) / 2 ^ 64) % 2 ^ 64 := by simp [add128]
  have carry : (lo.toNat + delta) / 2 ^ 64 = if 2 ^ 64 ≤ lo.toNat + delta then 1 else 0 := by
    split <;> omega
  refine ⟨low, carry ▸ high, ?_⟩
  rw [low, high]
  omega

/-- Settles O17: the printed values, by evaluation. -/
theorem lengthCounterCarryAtThePrintedValues : Obligations.LengthCounterCarryAtThePrintedValues := by
  unfold Obligations.LengthCounterCarryAtThePrintedValues
  decide

/-- `Add128` counts on (R163). -/
theorem add128_counterWords (n delta : Nat) :
    add128 (counterWords n).1 (counterWords n).2 delta = counterWords (n + delta) := by
  have high : n / 2 ^ 64 + (n % 2 ^ 64 + delta) / 2 ^ 64 = (n + delta) / 2 ^ 64 := by omega
  ext1
  · rw [counterWords, add128, BitVec.toNat_ofNat, ← BitVec.ofNat_add, high]
    rfl
  · apply BitVec.eq_of_toNat_eq
    simp [counterWords, add128]

/-- The hash state of some absorbed blocks: `H` by `Compress`, `LEN` the number of their bits (R33, R164). -/
theorem hashInput_hashNew (blocks : List BlockPair) : hashInput hashNew blocks =
    { h := compress initialVector blocks
      lenHi := (counterWords (1024 * blocks.length)).1
      lenLo := (counterWords (1024 * blocks.length)).2 } := by
  have hbits : 0 + 512 * (2 * blocks.length) = 1024 * blocks.length := by omega
  have hlen : add128 0 0 (512 * (2 * blocks.length)) = counterWords (1024 * blocks.length) :=
    hbits ▸ add128_counterWords 0 _
  rw [hashInput, hashNew, hlen]

/-! ### Messages as lists of pairs of blocks -/

theorem messageOf_append (as bs : List BlockPair) : messageOf (as ++ bs) = messageOf as ++ messageOf bs :=
  List.flatMap_append

theorem messageOf_cons (p : BlockPair) (bs : List BlockPair) :
    messageOf (p :: bs) = (shaBlockOf p).data ++ messageOf bs :=
  rfl

theorem messageOf_singleton (p : BlockPair) : messageOf [p] = p.1.data ++ p.2.data :=
  List.flatMap_singleton _ _

theorem messageOf_length (bs : List BlockPair) : (messageOf bs).length = 128 * bs.length := by
  induction bs with
  | nil => rfl
  | cons p bs ih => rw [messageOf_cons, List.length_append, Bytes.size, ih, List.length_cons]; omega

/-- Every message of `128 q` bytes is that of `q` pairs (R172). -/
theorem exists_messageOf_eq {m : List Byte} {q : Nat} (h : m.length = 128 * q) :
    ∃ blocks : List BlockPair, blocks.length = q ∧ messageOf blocks = m := by
  induction q generalizing m with
  | zero => exact ⟨[], rfl, (List.eq_nil_of_length_eq_zero h).symm⟩
  | succ q ih =>
    obtain ⟨bs, hlen, hbs⟩ := ih (m := m.drop 128) (by rw [List.length_drop]; omega)
    have h0 : (m.take 64).length = 64 := by rw [List.length_take]; omega
    have h1 : ((m.drop 64).take 64).length = 64 := by rw [List.length_take, List.length_drop]; omega
    refine ⟨(⟨_, h0⟩, ⟨_, h1⟩) :: bs, by rw [List.length_cons, hlen], ?_⟩
    calc m.take 64 ++ (m.drop 64).take 64 ++ messageOf bs
        = m.take (64 + 64) ++ m.drop 128 := by rw [hbs, List.take_add]
      _ = m := List.take_append_drop 128 m

/-! ### The padded message as whole blocks -/

/-- Cutting the message of some pairs into SHA blocks gives back the pairs' SHA blocks (R125, R177). -/
theorem shaBlocks_messageOf (bs : List BlockPair) : shaBlocks bs.length (messageOf bs) = bs.map shaBlockOf := by
  induction bs with
  | nil => rfl
  | cons p bs ih =>
    have hsize := (shaBlockOf p).size
    have hfirst : firstBytes 128 (messageOf (p :: bs)) = shaBlockOf p := by
      rw [firstBytes, Bytes.mk.injEq, messageOf_cons, List.append_assoc, List.take_left' hsize]
    have hrest : (messageOf (p :: bs)).drop 128 = messageOf bs := by
      rw [messageOf_cons, List.drop_left' hsize]
    rw [List.length_cons, shaBlocks, hfirst, hrest, ih, List.map_cons]

/-- The standard digest of a message whose padding makes it the bytes of some pairs (R177). -/
theorem stdSha512_of_padMessage {m : List Byte} {bs : List BlockPair} (h : padMessage m = messageOf bs) :
    stdSha512 m = serialise (compress initialVector bs) := by
  have hcount : (messageOf bs).length / 128 = bs.length := by rw [messageOf_length]; omega
  rw [stdSha512, h, hcount, shaBlocks_messageOf, List.foldl_map]
  rfl

/-- The standard padding of a message, its length in bits as counter words (R177). -/
theorem padMessage_eq {m : List Byte} {zs : Nat} (h : paddingZeros m.length = zs) :
    padMessage m = m ++ ([0x80] ++ List.replicate zs 0 ++ (be64 (counterWords (8 * m.length)).1).data
      ++ (be64 (counterWords (8 * m.length)).2).data) := by
  simp only [padMessage, h, zeros, counterWords, List.append_assoc]

/-- A message of whole SHA blocks is padded by the two blocks `HashFinish` appends (R166, R172). -/
theorem padMessage_messageOf (bs : List BlockPair) :
    padMessage (messageOf bs) = messageOf (bs ++ [(padBlock,
      lenBlock (counterWords (1024 * bs.length)).1 (counterWords (1024 * bs.length)).2)]) := by
  have hlen := messageOf_length bs
  have hbits : 8 * (messageOf bs).length = 1024 * bs.length := by omega
  have hzeros : paddingZeros (messageOf bs).length = 63 + 48 := by rw [paddingZeros]; omega
  rw [padMessage_eq hzeros, hbits, messageOf_append, messageOf_singleton, List.replicate_add]
  simp only [padBlock, lenBlock, zeros, Bytes.append, List.append_assoc]

/-- A message that ends in one block more is padded by the block `HashFinishWith` appends (R166, R173). -/
theorem padMessage_messageOf_block (bs : List BlockPair) (b : Block) :
    padMessage (messageOf bs ++ b.data) = messageOf (bs ++ [(b,
      lenBlock1 (counterWords (1024 * bs.length + 512)).1 (counterWords (1024 * bs.length + 512)).2)]) := by
  have hlen : (messageOf bs ++ b.data).length = 128 * bs.length + 64 := by
    rw [List.length_append, messageOf_length, b.size]
  have hbits : 8 * (messageOf bs ++ b.data).length = 1024 * bs.length + 512 := by omega
  have hzeros : paddingZeros (messageOf bs ++ b.data).length = 47 := by rw [paddingZeros]; omega
  rw [padMessage_eq hzeros, hbits, messageOf_append, messageOf_singleton]
  simp only [lenBlock1, zeros, Bytes.append, List.append_assoc]

/-- Finishing after some pairs gives the standard digest of their message (R172). -/
theorem hashFinish_hashInput (bs : List BlockPair) :
    hashFinish (hashInput hashNew bs) = stdSha512 (messageOf bs) := by
  rw [stdSha512_of_padMessage (padMessage_messageOf bs), hashInput_hashNew, hashFinish, compress_append]

/-- Finishing with a block after some pairs gives the standard digest of their message and the block (R173). -/
theorem hashFinishWith_hashInput (bs : List BlockPair) (b : Block) :
    hashFinishWith (hashInput hashNew bs) b = stdSha512 (messageOf bs ++ b.data) := by
  rw [stdSha512_of_padMessage (padMessage_messageOf_block bs b), hashInput_hashNew, hashFinishWith,
    add128_counterWords, compress_append]

/-- Settles O19: the standard padding of whole SHA blocks is the pair of blocks `HashFinish` appends. -/
theorem finishGivesTheStandardDigest : Obligations.FinishGivesTheStandardDigest :=
  ⟨hashFinish_hashInput, fun _ _ => exists_messageOf_eq⟩

/-- Settles O20: the standard padding after one block more completes that block to the pair `HashFinishWith` appends. -/
theorem finishWithGivesTheStandardDigest : Obligations.FinishWithGivesTheStandardDigest := by
  refine ⟨hashFinishWith_hashInput, fun m q hm => ?_⟩
  have hwhole : (m.take (128 * q)).length = 128 * q := by rw [List.length_take]; omega
  obtain ⟨blocks, hlen, hmsg⟩ := exists_messageOf_eq hwhole
  have hlast : (m.drop (128 * q)).length = 64 := by rw [List.length_drop]; omega
  exact ⟨blocks, ⟨m.drop (128 * q), hlast⟩, hlen, by rw [hmsg, List.take_append_drop]⟩

/-! ### Commands: the first failing check, else the completion -/

/-- A command's checks in order: the first that fails raises its fault, else the command goes on to `t` (R256). -/
def afterChecks (s : State) (c : Context) (checks : List (Bool × FaultCause × Word64)) (t : State) : State :=
  match checks with
  | [] => t
  | (failed, f, info) :: rest => if failed then enterFault s c f info else afterChecks s c rest t

theorem afterChecks_of_find? {s : State} {c : Context} {checks : List (Bool × FaultCause × Word64)} {f : FaultCause}
    {info : Word64} (h : (checks.find? (·.1)).map (·.2) = some (f, info)) (t : State) :
    afterChecks s c checks t = enterFault s c f info := by
  induction checks with
  | nil => cases h
  | cons k rest ih =>
    obtain ⟨failed, f', info'⟩ := k
    cases failed with
    | false => exact ih h
    | true =>
      cases h
      rfl

/-- Every body makes the checks of R256's table, in their order, before it does anything else. -/
theorem bodyOf_afterChecks (i : Instr) (c : Context) (s : State) :
    ∃ t, bodyOf i c s = afterChecks s c (checksOf i c s.memSize) t := by
  have inRange (a n : Nat) : s.inRange a n = !decide (s.memSize < a + n) := by
    simp [State.inRange, ← decide_not]
  cases i with
  | bsel | hnew => exact ⟨_, rfl⟩
  | hinput | hfinish | hfinishw =>
    simp only [bodyOf, hinputBody, hfinishBody, hfinishwBody, checksOf, afterChecks, hlive, inRange, Bool.not_not,
      beq_iff_eq, bne_iff_ne]
    cases c.hash with
    | none => exact ⟨s, rfl⟩
    | some hs => exact ⟨_, rfl⟩
  | expand | clabel | clabelx =>
    simp only [bodyOf, expandBody, deriveLabel, checksOf, afterChecks, inRange, Bool.not_not, bne_iff_ne]
    exact ⟨_, rfl⟩

/-- A command of a ready context raises the fault of its first failing check (R252, R256). -/
theorem exec_firstFault {i : Instr} {s : State} {c : Context} {f : FaultCause} {info : Word64} (h : Ready s c)
    (hf : firstFault i c s.memSize = some (f, info)) : exec i s = .next (faultedState s c f info) := by
  obtain ⟨t, ht⟩ := bodyOf_afterChecks i c (ensureBackend s)
  rw [exec_ready h, ht]
  exact congrArg _ (afterChecks_of_find? hf t)

/-- A command that completes with a store, as one record update: what it wrote is read back at its address, and every
byte outside its range is kept (R63). -/
theorem exists_mem_of_completeStore {i : Instr} {s : State} {c d : Context} {addr n : Nat} {bytes : Bytes n}
    (hwf : Memory.wf s.mem) (hstore : storeRange i c = some (addr, n))
    (h : exec i s = .next (completeStore (ensureBackend s) d addr bytes.data)) :
    ∃ m, exec i s = .next { s with
        backend := ensuredBackend s
        mem := m
        ctxs := s.ctxs.set s.current { d with res := .ok } } ∧
      readList m addr n = bytes.data ∧
      ∀ a, ¬ inStore (storeRange i c) a → readByte m a = readByte s.mem a := by
  refine ⟨memWrite s.mem addr bytes.data, h, readList_memWrite_bytes hwf addr bytes, fun a ha => ?_⟩
  exact readByte_memWrite_outside s.mem addr bytes.data (bytes.size.symm ▸ outside_store hstore ha)

/-- Settles O21: `HNEW` has no check of its own, and its context's `STATUS` has only `HLIVE`. -/
theorem hnewStartsAFreshHash : Obligations.HnewStartsAFreshHash := by
  refine ⟨rfl, fun s c h => ⟨exec_ready h .hnew, ?_⟩⟩
  have ⟨_, hf, _⟩ := h
  simp only [statusWord, faultField, hf, hlive, Option.isSome_some, ResultCode.code]
  decide

/-- Settles O22: the first failing check of three, else the completion with the blocks read from memory. -/
theorem hinputAbsorbsTheBlocks : Obligations.HinputAbsorbsTheBlocks := by
  refine ⟨rfl, fun s c h => ⟨fun hn => exec_firstFault h ?_, fun hs hh => ⟨fun ho => exec_firstFault h ?_,
    fun he hr => exec_firstFault h ?_, fun he hr => ⟨inputPairs s.mem c, ?_, ?_⟩⟩⟩⟩
  · simp [firstFault, checksOf, hlive, hn]
  · simp [firstFault, checksOf, hlive, hh, ho]
  · simp [firstFault, checksOf, hlive, hh, he, hr]
  · have hbytes : 128 * (c.cnt.toNat / 2) = 64 * c.cnt.toNat := by omega
    rw [inputPairs, messageOf_readPairs, hbytes]
  · have hcount : 2 * (c.cnt.toNat / 2) = c.cnt.toNat := by omega
    rw [hinput_completes h hh he hr, hashInput, inputPairs, readPairs_length, hcount]
    rfl

/-- Settles O24: the first failing check of two, else the completion with the digest stored. -/
theorem hfinishWritesTheDigest : Obligations.HfinishWritesTheDigest := by
  refine ⟨rfl, fun s c h hwf => ⟨fun hn => exec_firstFault h ?_, fun hs hh => ⟨fun hr => exec_firstFault h ?_,
    fun hr => exists_mem_of_completeStore hwf rfl (hfinish_completes h hh hr)⟩⟩⟩
  · simp [firstFault, checksOf, hlive, hn]
  · simp [firstFault, checksOf, hlive, hh, hr]

/-- Settles O25: the first failing check of four, else the completion with the digest stored. -/
theorem hfinishwWritesTheDigest : Obligations.HfinishwWritesTheDigest := by
  refine ⟨rfl, fun s c h hwf => ⟨fun hn => exec_firstFault h ?_, fun hs hh => ⟨fun hc => exec_firstFault h ?_,
    fun hc h1 => exec_firstFault h ?_, fun hc h1 h2 => exec_firstFault h ?_, fun hc h1 h2 =>
      exists_mem_of_completeStore hwf rfl (hfinishw_completes h hh hc h1 h2)⟩⟩⟩
  · simp [firstFault, checksOf, hlive, hn]
  · simp [firstFault, checksOf, hlive, hh, hc]
  · simp [firstFault, checksOf, hlive, hh, hc, h1]
  · simp [firstFault, checksOf, hlive, hh, hc, h1, h2]

end Sys2Proof.Machine

/-! ## The family 42_expand: the closed form of `Expand`, and the command `EXPAND` -/

namespace Sys2Proof.Machine

/-! ### A word complemented is its bytes complemented -/

theorem leValue_lt (l : List Byte) : leValue l < 256 ^ l.length := by
  induction l with
  | nil => decide
  | cons b l ih =>
    have hb := b.isLt
    rw [leValue, List.length_cons, Nat.pow_succ]
    omega

/-- The lowest byte comes first, then the bytes of the rest (R10). -/
theorem leBytes_add {n d v : Nat} (hd : d < 256) : leBytes (n + 1) (d + 256 * v) = BitVec.ofNat 8 d :: leBytes n v := by
  have hlow : BitVec.ofNat 8 (d + 256 * v) = BitVec.ofNat 8 d := by
    apply BitVec.eq_of_toNat_eq
    simp
  have hrest : (d + 256 * v) / 256 = v := by omega
  rw [leBytes, hlow, hrest]

theorem ofNat_255_sub_toNat (b : Byte) : BitVec.ofNat 8 (255 - b.toNat) = 0xFF - b := by
  bv_omega

/-- Subtracting from the all-ones number borrows from no byte, so it subtracts each byte from `0xFF`. -/
theorem leBytes_allOnes_sub_leValue (l : List Byte) :
    leBytes l.length (256 ^ l.length - 1 - leValue l) = l.map (0xFF - ·) := by
  induction l with
  | nil => rfl
  | cons b l ih =>
    have hb := b.isLt
    have hl := leValue_lt l
    have hsplit : 256 ^ l.length * 256 - 1 - (b.toNat + 256 * leValue l) =
        (255 - b.toNat) + 256 * (256 ^ l.length - 1 - leValue l) := by omega
    rw [List.length_cons, leValue, Nat.pow_succ, hsplit, leBytes_add (by omega), ih, List.map_cons, ofNat_255_sub_toNat]

/-- Steps 2 and 3 of R190 on one word: its four bytes, each subtracted from `0xFF`. -/
theorem le32_not_fromLe32 {l : List Byte} (hl : l.length = 4) : (le32 (~~~fromLe32 l)).data = l.map (0xFF - ·) := by
  have hlt := leValue_lt l
  have hnot : (~~~fromLe32 l).toNat = 256 ^ l.length - 1 - leValue l := by
    rw [hl] at hlt ⊢
    rw [BitVec.toNat_not, fromLe32, BitVec.toNat_ofNat]
    omega
  rw [le32, hnot, ← leBytes_allOnes_sub_leValue, hl]

/-! ### The closed form of `Expand` -/

theorem leWords_length (n : Nat) (l : List Byte) : (leWords n l).length = n := by
  induction n generalizing l with
  | zero => rfl
  | succ n ih => rw [leWords, List.length_cons, ih]

/-- Byte `b` of word `i` of the complemented words in reverse order, for any number `n` of words (R193). -/
theorem flatMap_reverse_leWords_getElem? {n i b : Nat} {l : List Byte} (hl : l.length = 4 * n) (hi : i < n)
    (hb : b < 4) : ((leWords n l).reverse.flatMap fun w => (le32 (~~~w)).data)[4 * i + b]? =
      l[4 * (n - 1 - i) + b]?.map (0xFF - ·) := by
  induction n generalizing l with
  | zero => omega
  | succ n ih =>
    have hlen : ((leWords n (l.drop 4)).reverse.flatMap fun w => (le32 (~~~w)).data).length = 4 * n := by
      simp [List.length_flatMap, Bytes.size, leWords_length, Nat.mul_comm]
    have hfirst : (l.take 4).length = 4 := by rw [List.length_take]; omega
    rw [leWords, List.reverse_cons, List.flatMap_append, List.flatMap_singleton, le32_not_fromLe32 hfirst]
    obtain hlt | rfl : i < n ∨ i = n := by omega
    · have hpos : 4 + (4 * (n - 1 - i) + b) = 4 * (n + 1 - 1 - i) + b := by omega
      rw [List.getElem?_append_left (by omega), ih (by rw [List.length_drop]; omega) hlt, List.getElem?_drop, hpos]
    · have hpos : 4 * i + b - 4 * i = b := by omega
      have hpos' : 4 * (i + 1 - 1 - i) + b = b := by omega
      rw [List.getElem?_append_right (by omega), hlen, hpos, hpos', List.getElem?_map, List.getElem?_take_of_lt hb]

/-- The closed form of the second half of `Expand` (R193). -/
theorem expandedHalf_getElem? (x : Bytes 32) {i b : Nat} (hi : i < 8) (hb : b < 4) :
    (expandedHalf x).data[4 * i + b]? = x.data[4 * (7 - i) + b]?.map (0xFF - ·) :=
  flatMap_reverse_leWords_getElem? x.size hi hb

theorem expandBytes_take (x : Bytes 32) : (expandBytes x).data.take 32 = x.data :=
  List.take_left' x.size

theorem expandBytes_drop (x : Bytes 32) : (expandBytes x).data.drop 32 = (expandedHalf x).data :=
  List.drop_left' x.size

theorem bytes_eq_of_data_eq {n : Nat} {x y : Bytes n} (h : x.data = y.data) : x = y := by
  cases x
  cases y
  cases h
  rfl

/-- Byte `j` of the input stands, complemented, in the word at the mirrored place (R193). -/
theorem expandedHalf_injective : Function.Injective expandedHalf := by
  intro x y h
  refine bytes_eq_of_data_eq (List.ext_getElem?' fun j hj => ?_)
  rw [x.size, y.size, Nat.max_self] at hj
  have hpos : 4 * (7 - (7 - j / 4)) + j % 4 = j := by omega
  have hi : 7 - j / 4 < 8 := by omega
  have hb : j % 4 < 4 := by omega
  have hx := expandedHalf_getElem? x hi hb
  rw [h, expandedHalf_getElem? y hi hb, hpos] at hx
  exact (Option.map_injective sub_right_injective hx).symm

/-- Settles O28: the closed form determines every byte of the input from the second half. -/
theorem expandHasItsClosedForm : Obligations.ExpandHasItsClosedForm := by
  refine ⟨fun x => ⟨expandBytes_take x, fun i b hi hb => ?_⟩, by decide, fun x y h => ?_⟩
  · have hx := x.size
    have hlt : 4 * (7 - i) + b < x.data.length := by omega
    refine ⟨_, List.getElem?_eq_getElem hlt, ?_⟩
    rw [Nat.add_assoc, ← List.getElem?_drop, expandBytes_drop, expandedHalf_getElem? x hi hb,
      List.getElem?_eq_getElem hlt, Option.map_some]
  · rw [expandBytes_drop, expandBytes_drop] at h
    exact expandedHalf_injective (bytes_eq_of_data_eq h)

/-! ### The command -/

/-- Settles O29: the first failing check of three, else the completion with the expansion stored. -/
theorem expandWritesTheExpansion : Obligations.ExpandWritesTheExpansion := by
  refine ⟨rfl, fun s c h hwf => ⟨fun hc => exec_firstFault h ?_, fun hc h1 => exec_firstFault h ?_,
    fun hc h1 h2 => exec_firstFault h ?_, fun hc h1 h2 =>
      exists_mem_of_completeStore hwf rfl (expand_completes h hc h1 h2)⟩⟩
  · simp [firstFault, checksOf, hc]
  · simp [firstFault, checksOf, hc, h1]
  · simp [firstFault, checksOf, hc, h1, h2]

end Sys2Proof.Machine

/-! ## The family 43_label: the label of node 0, the collaborator error, and the cleared top bits -/

namespace Sys2Proof.Machine

/-! ### The two label commands as one -/

/-- `i` is the label command that consults the oracle in the variant `v` (R203, R204). -/
def IsLabelCommand (i : Instr) (v : OracleVariant) : Prop :=
  (i = .clabel ∧ v = .plain) ∨ (i = .clabelx ∧ v = .exp)

theorem exists_isLabelCommand {i : Instr} (h : i = .clabel ∨ i = .clabelx) : ∃ v, IsLabelCommand i v := by
  obtain rfl | rfl := h
  · exact ⟨.plain, .inl ⟨rfl, rfl⟩⟩
  · exact ⟨.exp, .inr ⟨rfl, rfl⟩⟩

theorem IsLabelCommand.bodyOf_eq {i : Instr} {v : OracleVariant} (h : IsLabelCommand i v) :
    bodyOf i = deriveLabel v := by
  obtain ⟨rfl, rfl⟩ | ⟨rfl, rfl⟩ := h <;> rfl

theorem IsLabelCommand.storeRange_eq {i : Instr} {v : OracleVariant} (h : IsLabelCommand i v) (c : Context) :
    storeRange i c = some (slotAddr c, 32) := by
  obtain ⟨rfl, rfl⟩ | ⟨rfl, rfl⟩ := h <;> rfl

/-! ### Node 0 -/

/-- The label prefix has absorbed one pair, so finishing it gives a standard digest (R172, R202, R205). -/
theorem hashFinish_labelPrefix (rid : Bytes 32) (layer : Word32) (node : Word64) :
    hashFinish (labelPrefix rid layer node) = stdSha512
      ((expandBytes rid).data ++ (be32 layer).data ++ (be64 node).data ++ List.replicate 52 0) := by
  rw [labelPrefix, hashFinish_hashInput, messageOf_singleton]
  simp only [labelHeader, zeros, Bytes.append, List.append_assoc]

/-- Settles O30: on node 0 the digest is that of the label prefix alone. -/
theorem labelOfNodeZeroIsAStandardDigest : Obligations.LabelOfNodeZeroIsAStandardDigest := by
  intro i s c hi h hwf hn hrid hslot
  obtain ⟨v, hv⟩ := exists_isLabelCommand hi
  refine exists_mem_of_completeStore hwf (hv.storeRange_eq c) ?_
  rw [exec_ready h, hv.bodyOf_eq, deriveLabel_node_zero v hn hrid hslot, hashFinish_labelPrefix, hn]

/-! ### The collaborator error -/

/-- Settles O32: the collaborator error writes the slot, `RES` and `ERRINFO` alone. -/
theorem collaboratorErrorIsAResultNotAFault : Obligations.CollaboratorErrorIsAResultNotAFault := by
  intro i v s c e hi h hn hrid hslot ho
  have hv : IsLabelCommand i v := hi
  refine ⟨(collaboratorError (ensureBackend s) c e).consulted, ?_, by simp, by simp, by simp, by simp,
    fun a ha => ?_⟩
  · rw [exec_ready h, hv.bodyOf_eq, deriveLabel_err v hn hrid hslot ho]
  · have hout := outside_store (hv.storeRange_eq c) ha
    rw [consulted_mem, collaboratorError_mem, ensureBackend_mem, readByte_memWrite_outside]
    rwa [Bytes.size]

/-! ### The top bits of a completed label -/

/-- A context that has just entered a fault holds no usable label. -/
theorem not_labelUsable_of_enterFault {s : State} {c c' : Context} {f : FaultCause} {info : Word64}
    (hc : s.context? = some c) (h : (enterFault s c f info).context? = some c') : ¬ labelUsable c' := by
  rw [State.context?, enterFault_ctxs, enterFault_current, set_context? hc] at h
  cases h
  exact fun hu => nomatch hu.1

/-- A context that has just met a collaborator error holds no usable label (R208). -/
theorem not_labelUsable_of_collaboratorError {s : State} {c c' : Context} {e : Word64}
    (hc : s.context? = some c) (h : (collaboratorError s c e).context? = some c') : ¬ labelUsable c' := by
  rw [State.context?, collaboratorError_ctxs, collaboratorError_current, set_context? hc] at h
  cases h
  exact fun hu => nomatch hu.2

/-- Everything the body of a label command can do in context `c`, with the branch it took (R203, R204). -/
inductive LabelOutcome (v : OracleVariant) (c : Context) (s : State) : State → Prop where
  /-- The identifier or the slot is out of range. -/
  | fault (info : Word64) : LabelOutcome v c s (enterFault s c .memRange info)
  /-- On node 0 it stores the label of the prefix alone (R205). -/
  | nodeZero (node : c.node = 0) : LabelOutcome v c s (completeStore s c (slotAddr c)
      (labelOf (hashFinish (labelPrefix (memRead s.mem c.rid.toNat 32) c.layer c.node))).data)
  /-- Above node 0, with the oracle's blocks, it stores the label of prefix and blocks (R206). -/
  | parents (blocks : List BlockPair) (tail : Option Block) (node : c.node ≠ 0)
      (answer : s.oracleAnswer (oracleQuery v c s) = .ok blocks tail) :
      LabelOutcome v c s (completeStore s c (slotAddr c) (labelOf
        (parentDigest (labelPrefix (memRead s.mem c.rid.toNat 32) c.layer c.node) blocks tail)).data).consulted
  /-- Above node 0, with the oracle's error, it completes with a collaborator error (R208). -/
  | collab (e : Word64) (node : c.node ≠ 0) (answer : s.oracleAnswer (oracleQuery v c s) = .err e) :
      LabelOutcome v c s (collaboratorError s c e).consulted

theorem deriveLabel_labelOutcome (v : OracleVariant) (c : Context) (s : State) :
    LabelOutcome v c s (deriveLabel v c s) := by
  unfold deriveLabel
  dsimp only
  split
  · exact .fault _
  split
  · exact .fault _
  split
  · exact .nodeZero ‹_›
  split
  · exact .collab _ ‹_› ‹_›
  · exact .parents _ _ ‹_› ‹_›

/-- A label command that leaves a usable label has stored the label of some digest at the slot: its other ends are a
fault and a collaborator error. -/
theorem LabelOutcome.exists_mem_eq {v : OracleVariant} {s t : State} {c c' : Context} (h : LabelOutcome v c s t)
    (hc : s.context? = some c) (hc' : t.context? = some c') (hu : labelUsable c') :
    ∃ digest, t.mem = memWrite s.mem (slotAddr c) (labelOf digest).data := by
  cases h with
  | fault info => exact absurd hu (not_labelUsable_of_enterFault hc hc')
  | nodeZero _ => exact ⟨_, completeStore_mem s c _ _⟩
  | parents _ _ _ _ => exact ⟨_, (consulted_mem _).trans (completeStore_mem s c _ _)⟩
  | collab e _ _ =>
    rw [consulted_context?] at hc'
    exact absurd hu (not_labelUsable_of_collaboratorError hc hc')

/-- Byte 31 of a label has passed through the mask (R210). -/
theorem labelOf_getElem?_31 (d : Bytes 64) :
    (labelOf d).data[31]? = some ((truncateDigest d).data.getD 31 0 &&& 0x3F) := by
  have hlen : ((truncateDigest d).data.take 31).length = 31 := by rw [List.length_take, Bytes.size]; rfl
  rw [labelOf, maskLabel, List.getElem?_append_right hlen.le, hlen]
  rfl

theorem and_mask_and_topBits (b : Byte) : b &&& 0x3F &&& 0xC0 = 0 := by
  rw [BitVec.and_assoc]
  exact BitVec.and_zero

/-- A stored label, read in memory, has the top two bits of its last byte clear (R212). -/
theorem readByte_memWrite_labelOf {m : Memory} (hwf : Memory.wf m) (a : Nat) (d : Bytes 64) :
    readByte (memWrite m a (labelOf d).data) (a + 31) &&& 0xC0 = 0 := by
  obtain ⟨hlt, hbyte⟩ := List.getElem?_eq_some_iff.mp (labelOf_getElem?_31 d)
  rw [readByte_memWrite_inside hwf a _ hlt, hbyte, and_mask_and_topBits]

/-- Settles O34: the premise leaves only the ends that stored a label. -/
theorem completedLabelHasItsTopBitsClear : Obligations.CompletedLabelHasItsTopBitsClear := by
  intro i s t c c' hi hwf hc hf h hc' hu
  obtain ⟨v, hv⟩ := exists_isLabelCommand hi
  obtain ⟨c₀, hc₀, hcases⟩ := exec_cases h
  obtain rfl : c₀ = c := Option.some.inj (hc₀.symm.trans hc)
  obtain ⟨hf', -⟩ | ⟨-, e, -, rfl⟩ | ⟨-, rfl⟩ := hcases
  · exact absurd hf hf'
  · exact absurd hu (not_labelUsable_of_enterFault (s := ensureBackend s) hc hc')
  · rw [hv.bodyOf_eq] at hc' ⊢
    obtain ⟨digest, hmem⟩ := (deriveLabel_labelOutcome v c₀ (ensureBackend s)).exists_mem_eq hc hc' hu
    rw [hmem]
    exact readByte_memWrite_labelOf hwf (slotAddr c₀) digest

end Sys2Proof.Machine

/-! ## The family 45_verification_reference: the layout of the proof stream, and the two comparisons -/

namespace Sys2Proof.Machine

/-! ### Byte strings of one length, concatenated -/

theorem length_flatMap_data {α : Type} {n : Nat} (f : α → Bytes n) (l : List α) :
    (l.flatMap fun q => (f q).data).length = n * l.length := by
  simp [List.length_flatMap, Bytes.size, Nat.mul_comm]

/-- The byte strings of length `n` stand at the multiples of `n`. -/
theorem drop_flatMap_data {α : Type} {n : Nat} (f : α → Bytes n) (l : List α) (i : Nat) :
    (l.flatMap fun q => (f q).data).drop (n * i) = (l.drop i).flatMap fun q => (f q).data := by
  induction i generalizing l with
  | zero => rfl
  | succ i ih =>
    cases l with
    | nil => simp
    | cons q l =>
      rw [List.flatMap_cons, Nat.mul_succ, Nat.add_comm, ← List.drop_drop, List.drop_left' (f q).size, ih,
        List.drop_succ_cons]

theorem take_drop_flatMap_data {α : Type} {n i : Nat} (f : α → Bytes n) {l : List α} {q : α} (h : l[i]? = some q) :
    ((l.flatMap fun q => (f q).data).drop (n * i)).take n = (f q).data := by
  obtain ⟨hi, rfl⟩ := List.getElem?_eq_some_iff.mp h
  rw [drop_flatMap_data, List.drop_eq_getElem_cons hi, List.flatMap_cons, List.take_left' (f l[i]).size]

/-! ### The proof stream and the key -/

/-- The 12 bytes between the identifier and the parents: the layer and the node, big-endian (R231). -/
def proofHeader (p : NodeProof) : Bytes 12 :=
  Bytes.append (be32 p.layerIndex) (be64 p.node)

/-- The proof stream by its three parts, of 64, 12 and `64k` bytes (R231). -/
theorem proofStream_eq (rid : Bytes 32) (p : NodeProof) :
    proofStream rid p = (expandBytes rid).data ++
      ((proofHeader p).data ++ p.parents.flatMap fun q => (expandBytes q).data) := by
  simp only [proofStream, proofHeader, Bytes.append, List.append_assoc]

theorem proofStream_length (rid : Bytes 32) (p : NodeProof) :
    (proofStream rid p).length = 76 + 64 * p.parents.length := by
  rw [proofStream_eq, List.length_append, List.length_append, length_flatMap_data, Bytes.size, Bytes.size]
  omega

theorem proofStream_drop_64 (rid : Bytes 32) (p : NodeProof) :
    (proofStream rid p).drop 64 = (proofHeader p).data ++ p.parents.flatMap fun q => (expandBytes q).data := by
  rw [proofStream_eq, List.drop_left' (expandBytes rid).size]

theorem proofStream_drop_76 (rid : Bytes 32) (p : NodeProof) :
    (proofStream rid p).drop 76 = p.parents.flatMap fun q => (expandBytes q).data := by
  rw [← List.drop_drop (i := 12) (j := 64), proofStream_drop_64, List.drop_left' (proofHeader p).size]

/-- Settles O58: the parts have fixed lengths, so each starts where the ones before it end. -/
theorem proofStreamHasItsLayout : Obligations.ProofStreamHasItsLayout := by
  refine fun rid p => ⟨proofStream_length rid p, ?_, ?_, fun i q hq => ?_⟩
  · rw [proofStream_eq, List.take_left' (expandBytes rid).size]
  · rw [proofStream_drop_64, List.take_left' (proofHeader p).size]
    rfl
  · rw [← List.drop_drop, proofStream_drop_76, take_drop_flatMap_data expandBytes hq]

/-- Settles O60: the key reduces the truncated digest, and both comparisons decide equality. -/
theorem verifyReturnsTheComparison : Obligations.VerifyReturnsTheComparison := by
  refine fun p rid x encoded decoded => ⟨⟨truncateDigest (stdSha512 (proofStream rid p)), rfl, rfl⟩, ?_, ?_⟩
  · rw [labelingVerify, beq_iff_eq]
  · rw [encodingVerify, beq_iff_eq]

end Sys2Proof.Machine

/-! ## The family 60_exceptions: what fault entry changes -/

namespace Sys2Proof.Machine

/-- Fault entry in terms of the context it leaves: `FAULT` and `ERRINFO` are that context's, and the rest is as it
was (R252). -/
theorem enterFault_eq_of_ctxs {s : State} {c c' : Context} {f : FaultCause} {info : Word64}
    (hc : s.context? = some c) (hc' : (enterFault s c f info).ctxs[s.current]? = some c') : enterFault s c f info =
      { s with ctxs := s.ctxs.set s.current { c with fault := c'.fault, errInfo := c'.errInfo } } := by
  rw [enterFault_ctxs, set_context? hc] at hc'
  cases hc'
  rfl

section
variable {i : Instr} {s t : State} {c c' : Context} (hc : s.context? = some c) (hf : c.fault = none)
  (hc' : t.ctxs[s.current]? = some c') (hf' : c'.fault ≠ none)
include hc hf hc' hf'

/-- A body that leaves its context faulted has entered a fault: no completion writes `FAULT`. -/
theorem BodyOutcome.eq_enterFault (h : BodyOutcome i c s t) : ∃ f info, t = enterFault s c f info := by
  have completed {d : Context} (hd : d.fault = none) : (s.ctxs.set s.current d)[s.current]? ≠ some c' := by
    rw [set_context? hc]
    rintro ⟨⟩
    exact hf' hd
  cases h with
  | fault f info _ => exact ⟨f, info, rfl⟩
  | quiet _ _ _ => exact absurd hc' (completed hf)
  | store _ _ _ _ _ _ => exact absurd hc' (completed hf)
  | labelled _ _ _ => exact absurd hc' (completed hf)
  | collab _ _ _ =>
    rw [consulted_ctxs, collaboratorError_ctxs] at hc'
    exact absurd hc' (completed hf)

/-- A command that leaves an unfaulted context faulted has entered a fault, after `EnsureBackend` and nothing else
(R104, R252). -/
theorem exec_eq_enterFault (h : exec i s = .next t) : ∃ f info, t = enterFault (ensureBackend s) c f info := by
  obtain ⟨c₀, hc₀, hcases⟩ := exec_cases h
  obtain rfl : c₀ = c := Option.some.inj (hc₀.symm.trans hc)
  obtain ⟨hfaulted, -⟩ | ⟨-, e, -, rfl⟩ | ⟨-, rfl⟩ := hcases
  · exact absurd hf hfaulted
  · exact ⟨.cfg e, 0, rfl⟩
  · exact (bodyOf_outcome i c₀ (ensureBackend s)).eq_enterFault hc hf hc' hf'

end

/-- Settles O38: an illegal word enters its fault at once, a command after `EnsureBackend`. -/
theorem faultEntryChangesOnlyFaultAndErrinfo : Obligations.FaultEntryChangesOnlyFaultAndErrinfo := by
  intro s t k w rest c c' hact hc hf hstep hc' hf'
  have hctx : State.context? { s with actions := rest, current := k } = some c := hc
  rw [step_cmd hact] at hstep
  obtain hw | ⟨i, hw⟩ := decode_illegal_or_command w
  · rw [issue_illegal hw, runIllegal_unfaulted hctx hf] at hstep
    obtain rfl := Host.Outcome.next.inj hstep
    rw [if_pos hw]
    exact enterFault_eq_of_ctxs hctx hc'
  · rw [issue_command hw] at hstep
    obtain ⟨f, info, rfl⟩ := exec_eq_enterFault hctx hf hc' hf' hstep
    rw [if_neg (by simp [hw])]
    exact enterFault_eq_of_ctxs (s := ensureBackend { s with actions := rest, current := k }) hctx hc'

end Sys2Proof.Machine

/-! ## The absorbed message: splitting an input, and the state of some absorbed blocks -/

namespace Sys2Proof.Machine

/-! ### Splitting an input -/

theorem add128_add128 (hi lo : Word64) (d e : Nat) :
    add128 (add128 hi lo d).1 (add128 hi lo d).2 e = add128 hi lo (d + e) := by
  have carry : (lo.toNat + d) / 2 ^ 64 + ((lo.toNat + d) % 2 ^ 64 + e) / 2 ^ 64 = (lo.toNat + (d + e)) / 2 ^ 64 := by
    omega
  simp only [add128, BitVec.toNat_ofNat, BitVec.add_assoc, ← BitVec.ofNat_add, carry, Prod.mk.injEq, true_and]
  exact BitVec.eq_of_toNat_eq (by simp [Nat.add_assoc])

/-- Absorbing two lists in turn is absorbing their concatenation (R175). -/
theorem hashInput_hashInput (hs : HashState) (a b : List BlockPair) :
    hashInput (hashInput hs a) b = hashInput hs (a ++ b) := by
  have hbits : 512 * (2 * a.length) + 512 * (2 * b.length) = 512 * (2 * (a ++ b).length) := by
    rw [List.length_append]
    omega
  simp only [hashInput, compress_append, add128_add128, hbits]

theorem hashInput_nil (hs : HashState) : hashInput hs [] = hs := by
  simp [hashInput, compress, add128, Nat.div_eq_of_lt hs.lenLo.isLt]

theorem foldl_hashInput (hs : HashState) (a : List BlockPair) :
    a.foldl (fun st p => hashInput st [p]) hs = hashInput hs a := by
  induction a generalizing hs with
  | nil => exact (hashInput_nil hs).symm
  | cons p a ih => rw [List.foldl_cons, ih, hashInput_hashInput, List.singleton_append]

/-- Settles O18: the blocks are folded from the left and the counts of their bits add up. -/
theorem splittingAnInputChangesNothing : Obligations.SplittingAnInputChangesNothing :=
  fun hs a b => ⟨hashInput_hashInput hs a b, foldl_hashInput hs a⟩

/-! ### The state of some absorbed blocks -/

/-- The two counter words are determined by the 128-bit number they stand for (R31). -/
theorem eq_counterWords_iff {hi lo : Word64} {n : Nat} :
    (hi, lo) = counterWords n ↔ hi.toNat * 2 ^ 64 + lo.toNat = n % 2 ^ 128 := by
  have hhi := hi.isLt
  have hlo := lo.isLt
  rw [counterWords, Prod.mk.injEq, ← BitVec.toNat_inj, ← BitVec.toNat_inj, BitVec.toNat_ofNat, BitVec.toNat_ofNat]
  omega

/-- The state of some absorbed blocks is the one that absorbing them from the fresh state gives (R33, R161). -/
theorem absorbed_iff {hs : HashState} {blocks : List BlockPair} :
    absorbed hs blocks ↔ hs = hashInput hashNew blocks := by
  have hbits : 512 * (2 * blocks.length) = 1024 * blocks.length := by omega
  obtain ⟨h, hi, lo⟩ := hs
  rw [absorbed, hbits, ← eq_counterWords_iff, hashInput_hashNew, HashState.mk.injEq, Prod.ext_iff]

theorem absorbed_hashNew : absorbed hashNew [] :=
  absorbed_iff.mpr (hashInput_nil hashNew).symm

/-- Absorbing further blocks (R33, R164). -/
theorem absorbed_hashInput {hs : HashState} {blocks : List BlockPair} (h : absorbed hs blocks)
    (more : List BlockPair) : absorbed (hashInput hs more) (blocks ++ more) := by
  rw [absorbed_iff] at h ⊢
  rw [h, hashInput_hashInput]

/-! ### The commands on an absorbed message -/

/-- Settles O23: `HINPUT` absorbs the pairs of blocks at `SRC`. -/
theorem hinputExtendsTheAbsorbedMessage : Obligations.HinputExtendsTheAbsorbedMessage := by
  intro s c hs blocks h hh habs heven hrange
  have ⟨hc, _, _⟩ := h
  have hbytes : 128 * (c.cnt.toNat / 2) = 64 * c.cnt.toNat := by omega
  refine ⟨_, _, _, inputPairs s.mem c, hinput_completes h hh heven hrange, set_context? hc _, rfl,
    absorbed_hashInput habs _, ?_⟩
  rw [inputPairs, messageOf_readPairs, hbytes]

/-- Settles O26: the digest `HFINISH` stores is that of the absorbed blocks. -/
theorem hfinishLeavesTheStandardDigestOfTheMessage : Obligations.HfinishLeavesTheStandardDigestOfTheMessage := by
  intro s c hs blocks h hwf hh habs hrange
  refine ⟨_, hfinish_completes h hh hrange, ?_⟩
  rw [absorbed_iff.mp habs, hashFinish_hashInput]
  rw [completeStore_mem, ensureBackend_mem]
  exact readList_memWrite_bytes hwf (resultAddr c) _

/-- Settles O27: the digest `HFINISHW` stores is that of the absorbed blocks and the block read before the store. -/
theorem hfinishwLeavesTheStandardDigestOfTheMessage : Obligations.HfinishwLeavesTheStandardDigestOfTheMessage := by
  intro s c hs blocks h hwf hh habs hcnt hsrc hdst
  have hcnt' : c.cnt.toNat = 64 := by rw [hcnt]; rfl
  refine ⟨_, hfinishw_completes h hh hcnt' hsrc hdst, ?_⟩
  rw [absorbed_iff.mp habs, hashFinishWith_hashInput]
  rw [completeStore_mem, ensureBackend_mem]
  exact readList_memWrite_bytes hwf (resultAddr c) _

end Sys2Proof.Machine

/-! ## What every step keeps -/

namespace Sys2Proof.Machine

/-! ### A step as a sequence of the state's operations -/

/-- A property of states that each operation a step is made of keeps: on the model's own fields, on `BACKEND`, on one
context, and on memory. `RESET` alone stands apart (see `StepKeeps.after_step`). -/
structure StepKeeps (P : State → Prop) : Prop where
  /-- The model's own fields: the executing context, the pending actions, what the host has read, the oracle. -/
  own : ∀ {s k acts reps ans n}, P s →
    P { s with current := k, actions := acts, replies := reps, answers := ans, tick := n }
  /-- The one-time write of `BACKEND` (R122). -/
  select : ∀ {s}, P s → P (ensureBackend s)
  /-- Fault entry, with the record of R251. -/
  fault : ∀ {s c f info}, P s → s.context? = some c → c.fault = none →
    faultRecordOk s.backend { c with fault := some f, errInfo := info } → P (enterFault s c f info)
  /-- A completion: the hash state is kept, consumed, made fresh, or has absorbed blocks. -/
  complete : ∀ {s c hash r e}, P s → s.context? = some c → c.fault = none →
    (hash = c.hash ∨ hash = none ∨ hash = some hashNew ∨
      ∃ hs blocks, c.hash = some hs ∧ hash = some (hashInput hs blocks)) →
    P (s.setContext { c with hash := hash, res := r, errInfo := e })
  /-- A host write of a register (R24). -/
  register : ∀ {s k c}, P s → s.ctxs[k]? = some c → ∀ r v, P (s.setContextAt k (writeRegister c r v))
  /-- A store or a host write inside the memory (R63, R81). -/
  memory : ∀ {s addr bytes}, P s → addr + bytes.length ≤ s.memSize → P (s.setMem (memWrite s.mem addr bytes))

namespace StepKeeps

variable {P : State → Prop} {i : Instr} {s t : State} {c : Context} (keeps : StepKeeps P)
include keeps

theorem after_consulted (h : P s) : P s.consulted :=
  keeps.own (s := s) h

/-- A store, then the completion. -/
theorem after_store {addr : Nat} {bytes : List Byte} {hash : Option HashState} (h : P s) (hc : s.context? = some c)
    (hf : c.fault = none) (fits : addr + bytes.length ≤ s.memSize) (hhash : hash = c.hash ∨ hash = none)
    (r : ResultCode) (e : Word64) :
    P ((s.setMem (memWrite s.mem addr bytes)).setContext { c with hash := hash, res := r, errInfo := e }) :=
  keeps.complete (c := c) (keeps.memory h fits) hc hf (hhash.imp_right .inl)

theorem after_body (h : P s) (hc : s.context? = some c) (hf : c.fault = none) (hbody : BodyOutcome i c s t) : P t := by
  cases hbody with
  | fault f info record => exact keeps.fault h hc hf (record s.backend)
  | quiet hash _ hhash => exact keeps.complete (c := c) h hc hf (hhash.imp_right .inr)
  | store hash addr bytes _ fits hhash => exact keeps.after_store (c := c) h hc hf fits hhash .ok c.errInfo
  | labelled bytes _ fits => exact keeps.after_consulted (keeps.after_store h hc hf fits (.inl rfl) .ok c.errInfo)
  | collab e _ fits =>
    exact keeps.after_consulted (keeps.after_store h hc hf (by rwa [Bytes.size]) (.inl rfl) .collabErr e)

/-- The order of events of a command (R104). -/
theorem after_exec (h : P s) (hexec : exec i s = .next t) : P t := by
  obtain ⟨c, hc, ⟨-, rfl⟩ | ⟨hf, e, he, rfl⟩ | ⟨⟨-, hf, -⟩, rfl⟩⟩ := exec_cases hexec
  · exact h
  · exact keeps.fault (keeps.select h) hc hf ⟨rfl, error?_eq_some_iff.mp he⟩
  · exact keeps.after_body (keeps.select h) hc hf (bodyOf_outcome i c (ensureBackend s))

theorem after_runIllegal {w : Word32} (h : P s) (hw : decode w = .illegal w) (hrun : runIllegal s w = .next t) :
    P t := by
  obtain ⟨c, hc, ⟨-, rfl⟩ | ⟨hf, rfl⟩⟩ := runIllegal_cases hrun
  · exact h
  · exact keeps.fault h hc hf ⟨w, hw, rfl⟩

/-- Every step keeps the property, or is a `RESET` (R101, R103). -/
theorem after_step (h : P s) (hstep : step s = .next t) :
    P t ∨ ∃ inputs rest, s.actions = .reset inputs :: rest ∧ t = resetUnit { s with actions := rest } inputs := by
  obtain ⟨-, rfl⟩ | ⟨a, rest, hact, hperform⟩ := step_cases hstep
  · exact .inl h
  have hrest : P { s with actions := rest } := keeps.own (s := s) h
  obtain ⟨k, i, hexec⟩ | ⟨k, w, hw, hrun⟩ | ⟨k, c, r, v, hc, rfl⟩ | rfl | ⟨r, rfl⟩ |
    ⟨addr, bytes, hfits, rfl⟩ | ⟨inputs, rfl, rfl⟩ := perform_cases hperform
  · exact .inl (keeps.after_exec (keeps.own (s := s) h) hexec)
  · exact .inl (keeps.after_runIllegal (keeps.own (s := s) h) hw hrun)
  · exact .inl (keeps.register hrest hc r v)
  · exact .inl hrest
  · exact .inl (keeps.own (s := s) h)
  · exact .inl (keeps.memory hrest hfits)
  · exact .inr ⟨inputs, rest, hact, rfl⟩

/-- A property that `RESET` keeps too is kept by every step. -/
theorem after_step_of_reset (reset : ∀ {s}, P s → ∀ inputs, P (resetUnit s inputs)) (h : P s)
    (hstep : step s = .next t) : P t := by
  obtain ht | ⟨inputs, rest, -, rfl⟩ := keeps.after_step h hstep
  · exact ht
  · exact reset (keeps.own (s := s) h) inputs

end StepKeeps

/-! ### A host write of a register leaves the status of its context -/

theorem writeRegister_sameStatus (c : Context) (r : CtxReg) (v : Word64) : sameStatus c (writeRegister c r v) := by
  cases r <;> exact sameStatus_refl _

/-! ### The invariants, one by one -/

theorem stepKeeps_memoryOk : StepKeeps memoryOk where
  own h := h
  select h := h
  fault h _ _ _ := h
  complete h _ _ _ := h
  register h _ _ _ := h
  memory h hfits := ⟨memWrite_wf h.1 _ _, memWrite_bound h.2 hfits⟩

/-- The replacement of one context leaves their number. -/
theorem parametersOk_setContextAt {s : State} (h : parametersOk s) (k : Nat) (c : Context) :
    parametersOk (s.setContextAt k c) := by
  rwa [parametersOk, setContextAt_ctxs, List.length_set]

theorem stepKeeps_parametersOk : StepKeeps parametersOk where
  own h := h
  select h := h
  fault h _ _ _ := parametersOk_setContextAt h _ _
  complete h _ _ _ := parametersOk_setContextAt h _ _
  register h _ _ _ := parametersOk_setContextAt h _ _
  memory h _ := h

theorem stepKeeps_backendOk : StepKeeps backendOk where
  own h := h
  select {s} h := by
    rw [backendOk, ensureBackend_backend, ensureBackend_inputs, ensuredBackend_eq]
    split
    · exact .inr rfl
    · exact h
  fault h _ _ _ := h
  complete h _ _ _ := h
  register h _ _ _ := h
  memory h _ := h

/-- The context's hash state, if it has one, is that of some absorbed blocks (R33). -/
def hashOk (c : Context) : Prop :=
  ∀ hs, c.hash = some hs → ∃ blocks, absorbed hs blocks

theorem hashOk_of_hash_eq {c d : Context} (h : hashOk c) (heq : d.hash = c.hash) : hashOk d :=
  fun hs hd => h hs (heq ▸ hd)

theorem stepKeeps_hashesOk : StepKeeps hashesOk where
  own h := h
  select h := h
  fault h hc _ _ := forall_set h _ (hashOk_of_hash_eq (h _ (context?_mem hc)) rfl)
  complete {s c _ _ _} h hc _ hcases := by
    refine forall_set h _ fun hs (hhs : _ = some hs) => ?_
    obtain rfl | rfl | rfl | ⟨hs₀, blocks, hlive, rfl⟩ := hcases
    · exact h c (context?_mem hc) hs hhs
    · cases hhs
    · cases hhs
      exact ⟨[], absorbed_hashNew⟩
    · cases hhs
      obtain ⟨before, habs⟩ := h c (context?_mem hc) hs₀ hlive
      exact ⟨_, absorbed_hashInput habs blocks⟩
  register {s k c} h hc r v := by
    obtain ⟨hhash, -⟩ := writeRegister_sameStatus c r v
    exact forall_set h k (hashOk_of_hash_eq (h c (List.mem_of_getElem? hc)) hhash)
  memory h _ := h

/-- The record of a fault depends on what a register write leaves alone (R251). -/
theorem faultRecordOk_of_sameStatus {b : Backend} {c d : Context} (hcd : sameStatus c d) (h : faultRecordOk b c) :
    faultRecordOk b d := by
  obtain ⟨hhash, hfault, -, herr⟩ := hcd
  rwa [faultRecordOk, hhash, hfault, herr]

/-- The record of a configuration fault names the selection, so that the selection is no longer open. -/
theorem faultRecordOk_ensuredBackend {s : State} {c : Context} (h : faultRecordOk s.backend c) :
    faultRecordOk (ensuredBackend s) c := by
  rw [ensuredBackend_eq]
  split
  next hopen =>
    rw [hopen] at h
    unfold faultRecordOk at h ⊢
    split at h
    case h_2 => exact nomatch h.2
    all_goals exact h
  next => exact h

theorem stepKeeps_faultsOk : StepKeeps faultsOk where
  own h := h
  select h := fun c hc => faultRecordOk_ensuredBackend (h c hc)
  fault h _ _ record := forall_set h _ record
  complete {s c hash r e} h _ hf _ := by
    refine forall_set h _ ?_
    rw [faultRecordOk, hf]
    trivial
  register {s k c} h hc r v :=
    forall_set h k (faultRecordOk_of_sameStatus (writeRegister_sameStatus c r v) (h c (List.mem_of_getElem? hc)))
  memory h _ := h

/-! ### After reset -/

theorem hashesOk_of_reset {s : State} (h : ∀ c ∈ s.ctxs, c = Context.reset) : hashesOk s := by
  intro c hc hs hlive
  rw [h c hc] at hlive
  cases hlive

theorem faultsOk_of_reset {s : State} (h : ∀ c ∈ s.ctxs, c = Context.reset) : faultsOk s := by
  intro c hc
  rw [h c hc]
  trivial

theorem resetUnit_reset (s : State) (inputs : SelInputs) : ∀ c ∈ (resetUnit s inputs).ctxs, c = Context.reset :=
  fun _ => List.eq_of_mem_replicate

theorem parametersOk_resetUnit {s : State} (h : parametersOk s) (inputs : SelInputs) :
    parametersOk (resetUnit s inputs) := by
  rwa [parametersOk, resetUnit_ctxs, List.length_replicate]

theorem invariant_afterReset {nctx size : Nat} (inputs : SelInputs) {mem : Memory} (hn : 1 ≤ nctx)
    (hs : size ≤ 2 ^ 60) (hwf : Memory.wf mem) (hbound : ∀ p ∈ mem, p.1 < size) :
    Invariant (State.afterReset nctx size inputs mem) where
  memory := ⟨hwf, hbound⟩
  parameters := ⟨by rwa [State.afterReset, List.length_replicate], hs⟩
  hashes := hashesOk_of_reset fun _ => List.eq_of_mem_replicate
  backend := .inl rfl
  faults := faultsOk_of_reset fun _ => List.eq_of_mem_replicate

/-- Settles O55: no context holds a hash state or a fault after reset, and `BACKEND` holds nothing. -/
theorem invariantHoldsAfterReset : Obligations.InvariantHoldsAfterReset :=
  ⟨invariant_afterReset _ (by decide) (by decide) (by decide) (by simp),
    fun _ _ inputs _ => invariant_afterReset inputs⟩

/-! ### The obligations -/

/-- Settles O57: each operation keeps it, and `RESET` leaves no hash state. -/
theorem liveHashStatesStayReachable : Obligations.LiveHashStatesStayReachable :=
  fun _ _ => stepKeeps_hashesOk.after_step_of_reset fun _ inputs => hashesOk_of_reset (resetUnit_reset _ inputs)

/-- Settles O56: each part of the invariant is kept by itself. -/
theorem everyStepKeepsTheInvariant : Obligations.EveryStepKeepsTheInvariant := by
  intro s t h hstep
  exact {
    memory := stepKeeps_memoryOk.after_step_of_reset (fun hmem _ => hmem) h.memory hstep
    parameters := stepKeeps_parametersOk.after_step_of_reset parametersOk_resetUnit h.parameters hstep
    hashes := liveHashStatesStayReachable s t h.hashes hstep
    backend := stepKeeps_backendOk.after_step_of_reset (fun _ _ => .inl rfl) h.backend hstep
    faults := stepKeeps_faultsOk.after_step_of_reset (fun _ inputs => faultsOk_of_reset (resetUnit_reset _ inputs))
      h.faults hstep }

/-- The inputs stay and `BACKEND` is what it was in `s₀`, or has been selected since (R38, R122). -/
def BackendSince (s₀ s : State) : Prop :=
  s.inputs = s₀.inputs ∧
    (s.backend = s₀.backend ∨ (s₀.backend = .unselected ∧ s.backend = select s₀.inputs))

theorem stepKeeps_backendSince (s₀ : State) : StepKeeps (BackendSince s₀) where
  own h := h
  select {s} h := by
    obtain ⟨hinputs, hbackend⟩ := h
    refine ⟨hinputs, ?_⟩
    rw [ensureBackend_backend, ensuredBackend_eq, hinputs]
    split
    next hopen =>
      obtain hkept | ⟨hopen₀, -⟩ := hbackend
      · exact .inr ⟨hkept.symm.trans hopen, rfl⟩
      · exact .inr ⟨hopen₀, rfl⟩
    next => exact hbackend
  fault h _ _ _ := h
  complete h _ _ _ := h
  register h _ _ _ := h
  memory h _ := h

/-- Settles O11: the one write of `BACKEND` but `RESET`'s is `EnsureBackend`'s. -/
theorem backendIsWrittenOnceBetweenResets : Obligations.BackendIsWrittenOnceBetweenResets := by
  intro s t hstep
  obtain ⟨-, hkept | hselected⟩ | ⟨inputs, rest, hact, rfl⟩ :=
    (stepKeeps_backendSince s).after_step ⟨rfl, .inl rfl⟩ hstep
  · exact .inl hkept
  · exact .inr (.inl hselected)
  · exact .inr (.inr ⟨inputs, rest, hact, rfl⟩)

/-- Context `k` has the status of `c`. -/
def HasStatusAt (k : Nat) (c : Context) (s : State) : Prop :=
  ∃ d, s.ctxs[k]? = some d ∧ sameStatus c d

/-- Setting a context keeps the status of context `k` when it is another one or the status of the one set is kept. -/
theorem hasStatusAt_setContextAt {k j : Nat} {c d : Context} {s : State} (h : HasStatusAt k c s)
    (hd : j = k → sameStatus c d) : HasStatusAt k c (s.setContextAt j d) := by
  obtain ⟨e, he, hce⟩ := h
  by_cases hj : j = k
  · subst hj
    obtain ⟨hlt, -⟩ := List.getElem?_eq_some_iff.mp he
    exact ⟨d, List.getElem?_set_self hlt, hd rfl⟩
  · exact ⟨e, (List.getElem?_set_ne hj).trans he, hce⟩

theorem sameStatus_of_hasStatusAt {k : Nat} {c d : Context} {s : State} (h : HasStatusAt k c s)
    (hd : s.ctxs[k]? = some d) : sameStatus c d := by
  obtain ⟨e, he, hce⟩ := h
  rwa [Option.some.inj (hd.symm.trans he)]

/-- The status of a faulted context: no fault entry and no completion is in that context (R253). -/
theorem stepKeeps_hasStatusAt {k : Nat} {c : Context} (hf : c.fault ≠ none) : StepKeeps (HasStatusAt k c) := by
  have other {s : State} {d : Context} (h : HasStatusAt k c s) (hd : s.context? = some d) (hdf : d.fault = none) :
      s.current ≠ k := by
    rintro rfl
    obtain ⟨-, hfault, -⟩ := sameStatus_of_hasStatusAt h hd
    exact hf (hfault.symm.trans hdf)
  exact {
    own := fun h => h
    select := fun h => h
    fault := fun h hd hdf _ => hasStatusAt_setContextAt h fun hk => absurd hk (other h hd hdf)
    complete := fun h hd hdf _ => hasStatusAt_setContextAt h fun hk => absurd hk (other h hd hdf)
    register := by
      intro s j d h hd r v
      refine hasStatusAt_setContextAt h ?_
      rintro rfl
      obtain ⟨hhash, hfault, hres, herr⟩ := writeRegister_sameStatus d r v
      obtain ⟨hhash', hfault', hres', herr'⟩ := sameStatus_of_hasStatusAt h hd
      exact ⟨hhash.trans hhash', hfault.trans hfault', hres.trans hres', herr.trans herr'⟩
    memory := fun h _ => h }

/-- Settles O39: every step but `RESET` keeps the status of a faulted context. -/
theorem onlyResetClearsAFault : Obligations.OnlyResetClearsAFault := by
  intro s t k c hstep hc hf hreset
  obtain h | ⟨inputs, rest, hact, -⟩ := (stepKeeps_hasStatusAt hf).after_step ⟨c, hc, sameStatus_refl c⟩ hstep
  · exact h
  · exact absurd hact (hreset inputs rest)

end Sys2Proof.Machine

/-! ## How a command ends: its frame, its result, its checks -/

namespace Sys2Proof.Machine

/-! ### The ends of a command -/

/-- A store of `n` bytes in a command's range leaves every byte outside the range alone (R63, R68). -/
theorem readByte_memWrite_outside_store {i : Instr} {c : Context} {addr n : Nat}
    (hstore : storeRange i c = some (addr, n)) (m : Memory) (bytes : Bytes n) {a : Nat}
    (ha : ¬ inStore (storeRange i c) a) : readByte (memWrite m addr bytes.data) a = readByte m a :=
  readByte_memWrite_outside m addr bytes.data (bytes.size.symm ▸ outside_store hstore ha)

/-- Everything a command `i` that does not ignore its word can do in context `c`: which parts of the state each of its
ends writes, and which commands have that end. -/
inductive CommandEnd (i : Instr) (c : Context) (s : State) : State → Prop where
  /-- It raises a fault. -/
  | fault (f : FaultCause) (info : Word64) : CommandEnd i c s (enterFault s c f info)
  /-- It completes; the streaming hash commands alone write the hash state. -/
  | complete (m : Memory) (hash : Option HashState)
      (frame : ∀ a, ¬ inStore (storeRange i c) a → readByte m a = readByte s.mem a)
      (kept : i ∉ [Instr.hnew, .hinput, .hfinish, .hfinishw] → hash = c.hash) :
      CommandEnd i c s (complete (s.setMem m) { c with hash := hash })
  /-- A label command completes after one consultation of the oracle. -/
  | labelled (v : OracleVariant) (m : Memory) (label : IsLabelCommand i v)
      (frame : ∀ a, ¬ inStore (storeRange i c) a → readByte m a = readByte s.mem a) :
      CommandEnd i c s (complete (s.setMem m) c).consulted
  /-- A label command above node 0 completes with the error the oracle answered (R208). -/
  | collab (v : OracleVariant) (m : Memory) (e : Word64) (label : IsLabelCommand i v)
      (frame : ∀ a, ¬ inStore (storeRange i c) a → readByte m a = readByte s.mem a) (node : c.node ≠ 0)
      (answer : s.oracleAnswer (oracleQuery v c s) = .err e) :
      CommandEnd i c s ((s.setMem m).setContext { c with res := .collabErr, errInfo := e }).consulted

namespace CommandEnd

variable {i : Instr} {c : Context} {s : State}

theorem ite {p : Prop} [Decidable p] {t u : State} (ht : CommandEnd i c s t) (hu : CommandEnd i c s u) :
    CommandEnd i c s (if p then t else u) := by
  split
  · exact ht
  · exact hu

theorem quiet {hash : Option HashState} (kept : i ∉ [Instr.hnew, .hinput, .hfinish, .hfinishw] → hash = c.hash) :
    CommandEnd i c s (Machine.complete s { c with hash := hash }) :=
  .complete s.mem hash (fun _ _ => rfl) kept

theorem store {hash : Option HashState} {addr n : Nat} (hstore : storeRange i c = some (addr, n)) (bytes : Bytes n)
    (kept : i ∉ [Instr.hnew, .hinput, .hfinish, .hfinishw] → hash = c.hash) :
    CommandEnd i c s (completeStore s { c with hash := hash } addr bytes.data) :=
  .complete _ hash (fun _ => readByte_memWrite_outside_store hstore s.mem bytes) kept

end CommandEnd

section
variable (c : Context) (s : State)

theorem hinputBody_commandEnd : CommandEnd .hinput c s (hinputBody c s) := by
  unfold hinputBody
  cases c.hash with
  | none => exact .fault _ _
  | some hs => exact .ite (.fault _ _) (.ite (.fault _ _) (.quiet (by simp)))

theorem hfinishBody_commandEnd : CommandEnd .hfinish c s (hfinishBody c s) := by
  unfold hfinishBody
  cases c.hash with
  | none => exact .fault _ _
  | some hs => exact .ite (.fault _ _) (.store rfl _ (by simp))

theorem hfinishwBody_commandEnd : CommandEnd .hfinishw c s (hfinishwBody c s) := by
  unfold hfinishwBody
  cases c.hash with
  | none => exact .fault _ _
  | some hs => exact .ite (.fault _ _) (.ite (.fault _ _) (.ite (.fault _ _) (.store rfl _ (by simp))))

theorem expandBody_commandEnd : CommandEnd .expand c s (expandBody c s) :=
  .ite (.fault _ _) (.ite (.fault _ _) (.ite (.fault _ _) (.store (hash := c.hash) rfl _ fun _ => rfl)))

theorem deriveLabel_commandEnd {i : Instr} {v : OracleVariant} (hv : IsLabelCommand i v) :
    CommandEnd i c s (deriveLabel v c s) := by
  have hstore := hv.storeRange_eq c
  generalize ht : deriveLabel v c s = t
  cases ht ▸ deriveLabel_labelOutcome v c s with
  | fault info => exact .fault _ _
  | nodeZero _ => exact .store (hash := c.hash) hstore _ fun _ => rfl
  | parents _ _ _ _ => exact .labelled v _ hv fun _ => readByte_memWrite_outside_store hstore s.mem _
  | collab e node answer =>
    exact .collab v _ e hv (fun _ => readByte_memWrite_outside_store hstore s.mem _) node answer

theorem bodyOf_commandEnd (i : Instr) : CommandEnd i c s (bodyOf i c s) := by
  cases i with
  | bsel => exact .quiet (hash := c.hash) fun _ => rfl
  | hnew => exact .quiet (by simp)
  | hinput => exact hinputBody_commandEnd c s
  | hfinish => exact hfinishBody_commandEnd c s
  | hfinishw => exact hfinishwBody_commandEnd c s
  | expand => exact expandBody_commandEnd c s
  | clabel => exact deriveLabel_commandEnd c s (.inl ⟨rfl, rfl⟩)
  | clabelx => exact deriveLabel_commandEnd c s (.inr ⟨rfl, rfl⟩)

end

/-- A command ignores its word in a faulted context, and else comes to one of its ends (R104, R253). -/
theorem exec_commandEnd {i : Instr} {s t : State} {c : Context} (hc : s.context? = some c) (h : exec i s = .next t) :
    (c.fault ≠ none ∧ t = s) ∨ (c.fault = none ∧ CommandEnd i c (ensureBackend s) t) := by
  obtain ⟨c₀, hc₀, hcases⟩ := exec_cases h
  obtain rfl : c₀ = c := Option.some.inj (hc₀.symm.trans hc)
  obtain hfaulted | ⟨hf, e, -, rfl⟩ | ⟨⟨-, hf, -⟩, rfl⟩ := hcases
  · exact .inl hfaulted
  · exact .inr ⟨hf, .fault _ _⟩
  · exact .inr ⟨hf, bodyOf_commandEnd c₀ _ i⟩

theorem IsLabelCommand.mem {i : Instr} {v : OracleVariant} (h : IsLabelCommand i v) :
    i ∈ [Instr.clabel, .clabelx] := by
  obtain ⟨rfl, -⟩ | ⟨rfl, -⟩ := h <;> simp

/-- Settles O44: each end of a command writes the executing context, its store, and the oracle's fields at most. -/
theorem commandFrame : Obligations.CommandFrame := by
  intro i s t c hc h
  obtain ⟨-, rfl⟩ | ⟨hf, hend⟩ := exec_commandEnd hc h
  · exact ⟨rfl, rfl, rfl, rfl, rfl, rfl, fun _ _ => rfl, fun _ => ⟨rfl, rfl⟩,
      c, hc, sameOperands_refl c, fun _ => rfl, fun _ _ => rfl, fun _ => rfl⟩
  cases hend with
  | fault f info =>
    exact ⟨List.length_set, rfl, rfl, rfl, rfl, rfl, fun _ _ => rfl, fun _ => ⟨rfl, rfl⟩,
      _, set_context? hc _, sameOperands_refl c, fun _ => rfl,
      fun _ hf' => absurd hf' (Option.some_ne_none f), fun _ => rfl⟩
  | complete m hash frame kept =>
    exact ⟨List.length_set, rfl, rfl, rfl, rfl, rfl, frame, fun _ => ⟨rfl, rfl⟩,
      _, set_context? hc _, sameOperands_refl c, kept, fun _ _ => rfl, fun hf' => absurd hf hf'⟩
  | labelled v m label frame =>
    exact ⟨List.length_set, rfl, rfl, rfl, rfl, rfl, frame, fun hi => absurd label.mem hi,
      _, set_context? hc _, sameOperands_refl c, fun _ => rfl, fun hi => absurd label.mem hi,
      fun hf' => absurd hf hf'⟩
  | collab v m e label frame _ _ =>
    exact ⟨List.length_set, rfl, rfl, rfl, rfl, rfl, frame, fun hi => absurd label.mem hi,
      _, set_context? hc _, sameOperands_refl c, fun _ => rfl, fun hi => absurd label.mem hi,
      fun hf' => absurd hf hf'⟩

/-- Settles O40: of the ends without a fault, one is a collaborator error. -/
theorem completionWritesTheResultCode : Obligations.CompletionWritesTheResultCode := by
  intro i s t c c' hc hf h hc' hf'
  obtain ⟨hf₀, -⟩ | ⟨-, hend⟩ := exec_commandEnd hc h
  · exact absurd hf hf₀
  cases hend with
  | fault f info =>
    cases (set_context? hc _).symm.trans hc'
    cases hf'
  | complete m hash _ _ =>
    cases (set_context? hc _).symm.trans hc'
    exact .inl ⟨rfl, rfl⟩
  | labelled v m _ _ =>
    cases (set_context? hc _).symm.trans hc'
    exact .inl ⟨rfl, rfl⟩
  | collab v m e label _ node answer =>
    cases (set_context? hc _).symm.trans hc'
    obtain ⟨rfl, rfl⟩ | ⟨rfl, rfl⟩ := label
    · exact .inr ⟨rfl, node, .inl ⟨rfl, answer⟩⟩
    · exact .inr ⟨rfl, node, .inr ⟨rfl, answer⟩⟩

/-! ### A command none of whose checks fails -/

/-- A label command whose ranges fit ends with no fault (R203, R205, R206, R208). -/
theorem deriveLabel_completes {s : State} {c : Context} (v : OracleVariant) (hc : s.context? = some c)
    (hrid : c.rid.toNat + 32 ≤ s.memSize) (hslot : slotAddr c + 32 ≤ s.memSize) :
    ∃ c', (deriveLabel v c (ensureBackend s)).context? = some c' ∧ c'.fault = c.fault := by
  by_cases hn : c.node = 0
  · rw [deriveLabel_node_zero v hn hrid hslot]
    exact ⟨_, set_context? hc _, rfl⟩
  · cases answer : s.oracleAnswer (oracleQuery v c s) with
    | ok blocks tail =>
      rw [deriveLabel_ok v hn hrid hslot answer]
      exact ⟨_, set_context? hc _, rfl⟩
    | err e =>
      rw [deriveLabel_err v hn hrid hslot answer]
      exact ⟨_, set_context? hc _, rfl⟩

theorem exec_label_completes {i : Instr} {v : OracleVariant} {s : State} {c : Context}
    (hv : IsLabelCommand i v) (h : Ready s c) (hrid : c.rid.toNat + 32 ≤ s.memSize)
    (hslot : slotAddr c + 32 ≤ s.memSize) :
    ∃ t c', exec i s = .next t ∧ t.context? = some c' ∧ c'.fault = none := by
  have ⟨hc, hf, _⟩ := h
  obtain ⟨c', hc', hf'⟩ := deriveLabel_completes v hc hrid hslot
  exact ⟨_, c', by rw [exec_ready h, hv.bodyOf_eq], hc', hf'.trans hf⟩

/-- Settles O37: with no failing check, every command's completion leaves `FAULT` as it was. -/
theorem readyCommandRaisesItsFirstFailingCheck : Obligations.ReadyCommandRaisesItsFirstFailingCheck := by
  refine fun i s c h => ⟨fun f info => exec_firstFault h, fun hnone => ?_⟩
  have ⟨hc, hf, _⟩ := h
  simp only [firstFault, Option.map_eq_none_iff, List.find?_eq_none] at hnone
  cases i with
  | bsel => exact ⟨_, _, exec_ready h .bsel, set_context? hc _, hf⟩
  | hnew => exact ⟨_, _, exec_ready h .hnew, set_context? hc _, hf⟩
  | hinput =>
    obtain ⟨hlive, heven, hrange⟩ := by simpa [checksOf, hlive, Option.isSome_iff_exists] using hnone
    obtain ⟨hs, hh⟩ := hlive
    exact ⟨_, _, hinput_completes h hh heven hrange, set_context? hc _, hf⟩
  | hfinish =>
    obtain ⟨hlive, hrange⟩ := by simpa [checksOf, hlive, Option.isSome_iff_exists] using hnone
    obtain ⟨hs, hh⟩ := hlive
    exact ⟨_, _, hfinish_completes h hh hrange, set_context? hc _, hf⟩
  | hfinishw =>
    obtain ⟨hlive, hcnt, hsrc, hdst⟩ := by simpa [checksOf, hlive, Option.isSome_iff_exists] using hnone
    obtain ⟨hs, hh⟩ := hlive
    exact ⟨_, _, hfinishw_completes h hh hcnt hsrc hdst, set_context? hc _, hf⟩
  | expand =>
    obtain ⟨hcnt, hsrc, hdst⟩ := by simpa [checksOf] using hnone
    exact ⟨_, _, expand_completes h hcnt hsrc hdst, set_context? hc _, hf⟩
  | clabel =>
    obtain ⟨hrid, hslot⟩ := by simpa [checksOf] using hnone
    exact exec_label_completes (.inl ⟨rfl, rfl⟩) h hrid hslot
  | clabelx =>
    obtain ⟨hrid, hslot⟩ := by simpa [checksOf] using hnone
    exact exec_label_completes (.inr ⟨rfl, rfl⟩) h hrid hslot

end Sys2Proof.Machine

/-! ## Labels: above node 0, on node 0 by either command, and by their inputs alone -/

namespace Sys2Proof.Machine

/-! ### The parent digest as a standard digest -/

/-- The pair of `LabelPrefix` and the oracle's blocks are one absorbed message (R172, R173, R202, R206). -/
theorem parentDigest_labelPrefix (rid : Bytes 32) (layer : Word32) (node : Word64) (blocks : List BlockPair)
    (tail : Option Block) : parentDigest (labelPrefix rid layer node) blocks tail = stdSha512
      ((expandBytes rid).data ++ ((be32 layer).data ++ (be64 node).data ++ List.replicate 52 0)
        ++ messageOf blocks ++ tailBytes tail) := by
  have hheader : (labelHeader layer node).data = (be32 layer).data ++ (be64 node).data ++ List.replicate 52 0 := rfl
  have hmsg : messageOf ([(expandBytes rid, labelHeader layer node)] ++ blocks) =
      (expandBytes rid).data ++ ((be32 layer).data ++ (be64 node).data ++ List.replicate 52 0) ++ messageOf blocks := by
    rw [messageOf_append, messageOf_singleton, hheader]
  cases tail with
  | none => rw [parentDigest, labelPrefix, hashInput_hashInput, hashFinish_hashInput, hmsg, tailBytes, List.append_nil]
  | some b => rw [parentDigest, labelPrefix, hashInput_hashInput, hashFinishWith_hashInput, hmsg, tailBytes]

/-- A command that completes with a store and one consultation, as one record update: what it wrote is read back at its
address, and every byte outside its range is kept (R63, R206). -/
theorem exists_mem_of_completeStore_consulted {i : Instr} {s : State} {c : Context} {addr n : Nat} {bytes : Bytes n}
    (hwf : Memory.wf s.mem) (hstore : storeRange i c = some (addr, n))
    (h : exec i s = .next (completeStore (ensureBackend s) c addr bytes.data).consulted) :
    ∃ m, exec i s = .next { s with
        backend := ensuredBackend s
        mem := m
        answers := s.answers.tail
        tick := s.tick + 1
        ctxs := s.ctxs.set s.current { c with res := .ok } } ∧
      readList m addr n = bytes.data ∧
      ∀ a, ¬ inStore (storeRange i c) a → readByte m a = readByte s.mem a :=
  ⟨_, h, readList_memWrite_bytes hwf addr bytes, fun _ => readByte_memWrite_outside_store hstore s.mem bytes⟩

/-- Settles O31: the label stored is that of the parent digest, and one consultation of the oracle is used up. -/
theorem labelAboveNodeZeroIsTheDigestOfTheParentStream :
    Obligations.LabelAboveNodeZeroIsTheDigestOfTheParentStream := by
  intro i v s c blocks tail hi h hwf hn hrid hslot answer
  have hv : IsLabelCommand i v := hi
  refine exists_mem_of_completeStore_consulted hwf (hv.storeRange_eq c) ?_
  rw [exec_ready h, hv.bodyOf_eq, deriveLabel_ok v hn hrid hslot answer, parentDigest_labelPrefix]

/-! ### The mask -/

/-- The mask leaves the first 31 bytes alone (R210). -/
theorem labelOf_take_31 (d : Bytes 64) : (labelOf d).data.take 31 = d.data.take 31 := by
  have hlen : ((truncateDigest d).data.take 31).length = 31 := by rw [List.length_take, Bytes.size]; rfl
  rw [labelOf, maskLabel, List.take_left' hlen, truncateDigest, List.take_take]
  rfl

/-- Settles O33: the mask is on byte 31 of the truncated digest, which is the digest's. -/
theorem labelIsTheMaskedPrefixOfTheDigest : Obligations.LabelIsTheMaskedPrefixOfTheDigest := by
  intro d
  have hlt : 31 < d.data.length := by rw [d.size]; decide
  have hbyte : (truncateDigest d).data.getD 31 0 = d.data[31] := by
    rw [truncateDigest, List.getD_eq_getElem?_getD, List.getElem?_take_of_lt (by decide),
      List.getElem?_eq_getElem hlt, Option.getD_some]
  exact ⟨labelOf_take_31 d, d.data[31], List.getElem?_eq_getElem hlt, by rw [labelOf_getElem?_31, hbyte]⟩

/-! ### Node 0 -/

/-- On node 0 neither the variant nor the oracle has an influence (R204, R205). -/
theorem deriveLabel_eq_of_node_zero (v w : OracleVariant) {c : Context} (hn : c.node = 0) (s : State) :
    deriveLabel v c s = deriveLabel w c s := by
  simp only [deriveLabel, hn, if_true]

theorem exec_clabelx_eq_exec_clabel {s : State} {c : Context} (hc : s.context? = some c) (hn : c.node = 0) :
    exec .clabelx s = exec .clabel s := by
  have hbody : bodyOf .clabelx c (ensureBackend s) = bodyOf .clabel c (ensureBackend s) :=
    deriveLabel_eq_of_node_zero .exp .plain hn _
  simp only [exec_eq, runCommand, hc, hbody]

/-- Settles O35: on node 0 both run one body, and `CLABEL` does not list `XBASE`. -/
theorem bothLabelCommandsAgreeOnNodeZero : Obligations.BothLabelCommandsAgreeOnNodeZero := by
  refine fun s c hc hn => ⟨exec_clabelx_eq_exec_clabel hc hn, fun x t d h hd => ?_⟩
  have hcx : (s.setContext { c with xbase := x }).context? = some { c with xbase := x } := setContext_context? hc _
  obtain ⟨t', ht', c', d', hcur, hctxs, rfl, hops, hopsx, hstatus⟩ :=
    exec_sameEffect s _ (c := c) (d := { c with xbase := x }) ⟨rfl, rfl, rfl, rfl⟩ h hc hcx
      ⟨rfl, rfl, rfl, rfl, rfl⟩
  obtain rfl : c' = d := by
    rw [State.context?, hcur, hctxs, set_context? hc] at hd
    exact Option.some.inj hd
  obtain rfl : { c' with xbase := x } = d' := by
    obtain ⟨hsrc, hcnt, hdst, hrid, hlbase, -, hlayer, hnode, hcache⟩ := hops
    obtain ⟨hhash, hfault, hres, herr⟩ := hstatus
    have hops' : sameOperands { c with xbase := x } { c' with xbase := x } :=
      ⟨hsrc, hcnt, hdst, hrid, hlbase, rfl, hlayer, hnode, hcache⟩
    exact eq_of_sameOperands_of_sameStatus hops' hopsx ⟨hhash, hfault, hres, herr⟩
  rw [exec_clabelx_eq_exec_clabel hcx hn]
  refine ht'.trans ?_
  rw [setContext_ctxs, List.set_set, State.setContext, State.setContextAt, hcur, hctxs, List.set_set]

/-! ### A label by its inputs -/

/-- The digest a label is taken from, by the identifier, the layer, the node and the oracle's answer (R205, R206). After
an error of the oracle there is none; the value is that of `LabelPrefix` alone. -/
def labelDigest (rid : Bytes 32) (layer : Word32) (node : Word64) (answer : OracleAnswer) : Bytes 64 :=
  match answer with
  | .err _ => hashFinish (labelPrefix rid layer node)
  | .ok blocks tail =>
    if node = 0 then hashFinish (labelPrefix rid layer node)
    else parentDigest (labelPrefix rid layer node) blocks tail

theorem labelDigest_node_zero (rid : Bytes 32) (layer : Word32) (answer : OracleAnswer) :
    labelDigest rid layer 0 answer = hashFinish (labelPrefix rid layer 0) := by
  cases answer <;> rfl

/-- A label command that leaves a usable label has stored the one its inputs give. -/
theorem LabelOutcome.mem_eq {v : OracleVariant} {s t : State} {c c' : Context} (h : LabelOutcome v c s t)
    (hc : s.context? = some c) (hc' : t.context? = some c') (hu : labelUsable c') :
    t.mem = memWrite s.mem (slotAddr c) (labelOf (labelDigest (memRead s.mem c.rid.toNat 32) c.layer c.node
      (s.oracleAnswer (oracleQuery v c s)))).data := by
  cases h with
  | fault info => exact absurd hu (not_labelUsable_of_enterFault hc hc')
  | nodeZero node => rw [completeStore_mem, node, labelDigest_node_zero]
  | parents blocks tail node answer => rw [consulted_mem, completeStore_mem, answer, labelDigest, if_neg node]
  | collab e _ _ =>
    rw [consulted_context?] at hc'
    exact absurd hu (not_labelUsable_of_collaboratorError hc hc')

/-- The slot after a label command that leaves a usable label (R215). -/
theorem readList_slot_of_labelUsable {i : Instr} {v : OracleVariant} {s t : State} {c c' : Context}
    (hv : IsLabelCommand i v) (hwf : Memory.wf s.mem) (hc : s.context? = some c) (hf : c.fault = none)
    (h : exec i s = .next t) (hc' : t.context? = some c') (hu : labelUsable c') :
    readList t.mem (slotAddr c) 32 = (labelOf (labelDigest (memRead s.mem c.rid.toNat 32) c.layer c.node
      (s.oracleAnswer (oracleQuery v c s)))).data := by
  obtain ⟨c₀, hc₀, hcases⟩ := exec_cases h
  obtain rfl : c₀ = c := Option.some.inj (hc₀.symm.trans hc)
  obtain ⟨hf', -⟩ | ⟨-, e, -, rfl⟩ | ⟨-, rfl⟩ := hcases
  · exact absurd hf hf'
  · exact absurd hu (not_labelUsable_of_enterFault (s := ensureBackend s) hc hc')
  · rw [hv.bodyOf_eq] at hc' ⊢
    rw [(deriveLabel_labelOutcome v c₀ (ensureBackend s)).mem_eq hc hc' hu]
    exact readList_memWrite_bytes hwf (slotAddr c₀) _

/-- Settles O36: the label stored is a function of the inputs, and on node 0 not of the answer. -/
theorem labelIsDeterminedByItsInputs : Obligations.LabelIsDeterminedByItsInputs := by
  intro i j v w s s' t t' c c' d d' hi hj hwf hwf' hc hd hcf hdf hlayer hnode hrid hanswer ht ht' hc' hd' hu hu'
  rw [readList_slot_of_labelUsable hi hwf hc hcf ht hc' hu, readList_slot_of_labelUsable hj hwf' hd hdf ht' hd' hu',
    hrid, hlayer, hnode]
  by_cases hn : c.node = 0
  · rw [hn, labelDigest_node_zero, labelDigest_node_zero]
  · rw [hanswer hn]

end Sys2Proof.Machine

/-! ## The host's actions: when they are performed, what they write and read -/

namespace Sys2Proof.Machine

/-! ### The next action -/

theorem step_of_actions {s : State} {a : HostAction} {rest : List HostAction} (h : s.actions = a :: rest) :
    step s = perform exec a { s with actions := rest } := by
  rw [step, h]

theorem context?_lt {s : State} {c : Context} (h : s.context? = some c) : s.current < s.ctxs.length :=
  (List.getElem?_eq_some_iff.mp h).1

/-- A faulted context ignores an illegal word too (R253). -/
theorem runIllegal_faulted {s : State} {c : Context} (hc : s.context? = some c) (hf : c.fault ≠ none) (w : Word32) :
    runIllegal s w = .next s := by
  simp [runIllegal, hc, Option.isSome_iff_ne_none, hf]

/-- A command is executed exactly in a context that exists (R21). -/
theorem exists_exec_eq_next_iff {i : Instr} {s : State} :
    (∃ t, exec i s = .next t) ↔ s.current < s.ctxs.length := by
  constructor
  · rintro ⟨t, h⟩
    obtain ⟨c, hc, -⟩ := exec_cases h
    exact context?_lt hc
  · intro hlt
    have hc : s.context? = some s.ctxs[s.current] := List.getElem?_eq_getElem hlt
    by_cases hf : s.ctxs[s.current].fault = none
    · obtain ⟨t, h, -⟩ := exec_unfaulted_backend i hc hf
      exact ⟨t, h⟩
    · exact ⟨s, by rw [exec_eq, runCommand_faulted hc hf]⟩

theorem exists_runIllegal_eq_next_iff {s : State} {w : Word32} :
    (∃ t, runIllegal s w = .next t) ↔ s.current < s.ctxs.length := by
  constructor
  · rintro ⟨t, h⟩
    obtain ⟨c, hc, -⟩ := runIllegal_cases h
    exact context?_lt hc
  · intro hlt
    have hc : s.context? = some s.ctxs[s.current] := List.getElem?_eq_getElem hlt
    by_cases hf : s.ctxs[s.current].fault = none
    · exact ⟨_, runIllegal_unfaulted hc hf w⟩
    · exact ⟨s, runIllegal_faulted hc hf w⟩

/-- Any word may be issued to a context that exists (R97). -/
theorem exists_issue_eq_next_iff {k : Nat} {w : Word32} {s : State} :
    (∃ t, issue exec k w s = .next t) ↔ k < s.ctxs.length := by
  obtain hw | ⟨i, hw⟩ := decode_illegal_or_command w
  · rw [issue_illegal hw]
    exact exists_runIllegal_eq_next_iff
  · rw [issue_command hw]
    exact exists_exec_eq_next_iff

/-! ### Writes and reads of registers -/

section
variable {s : State} {k n : Nat} {c : Context}

theorem hostWrite_noContext (hk : s.ctxs[k]? = none) (run : Instr → State → StepOutcome) (v : Word64) :
    hostWrite run k n v s = .refused (.noSuchContext k) := by
  rw [hostWrite, hk]

theorem hostRead_noContext (hk : s.ctxs[k]? = none) : hostRead k n s = .refused (.noSuchContext k) := by
  rw [hostRead, hk]

variable (hc : s.ctxs[k]? = some c)
include hc

/-- A write of a number that names a context register (R24, R27). -/
theorem hostWrite_ctx {r : CtxReg} (hr : regOfNumber n = .ctx r) (run : Instr → State → StepOutcome)
    (v : Word64) : hostWrite run k n v s =
      if v.toNat < 2 ^ widthOf r then
        (if r = .cmd then issue run k (v.setWidth 32) s else .next (s.setContextAt k (writeRegister c r v)))
      else .refused (.valueTooWide n v) := by
  simp only [hostWrite, hc, hr]

/-- A write of a number that names no context register has no effect (R43, assumption 14). -/
theorem hostWrite_of_not_ctx (hr : ∀ r, regOfNumber n ≠ .ctx r) (run : Instr → State → StepOutcome)
    (v : Word64) : hostWrite run k n v s = .next s := by
  cases hn : regOfNumber n with
  | ctx r => exact absurd hn (hr r)
  | global g => simp only [hostWrite, hc, hn]
  | unmapped => simp only [hostWrite, hc, hn]

theorem hostRead_ctx {r : CtxReg} (hr : regOfNumber n = .ctx r) :
    hostRead k n s = .next (s.reply (.register (readRegister c r))) := by
  simp only [hostRead, hc, hr]

theorem hostRead_global {g : GlobalReg} (hr : regOfNumber n = .global g) :
    hostRead k n s = .next (s.reply (.register (readGlobal s g))) := by
  simp only [hostRead, hc, hr]

/-- Every number can be read in a context that exists (R43). -/
theorem exists_hostRead_eq_next : ∃ t, hostRead k n s = .next t := by
  cases hn : regOfNumber n with
  | ctx r => exact ⟨_, hostRead_ctx hc hn⟩
  | global g => exact ⟨_, hostRead_global hc hn⟩
  | unmapped => exact ⟨_, hostRead_unmapped (List.getElem?_eq_some_iff.mp hc).1 hn⟩

/-- The step of a write of a register but `CMD`, by its number (R24). -/
theorem step_wr {r : CtxReg} (hr : r ≠ .cmd) (v : Word64) (rest : List HostAction) :
    step { s with actions := .wr k (numberOf r) v :: rest } =
      if v.toNat < 2 ^ widthOf r then .next { s with actions := rest, ctxs := s.ctxs.set k (writeRegister c r v) }
      else .refused (.valueTooWide (numberOf r) v) := by
  refine (hostWrite_ctx (s := { s with actions := rest }) hc (regOfNumber_numberOf r) exec v).trans ?_
  rw [if_neg hr]
  rfl

/-- A write of a value that fits. -/
theorem step_wr_fits {r : CtxReg} {v : Word64} (hr : r ≠ .cmd) (hv : v.toNat < 2 ^ widthOf r)
    (rest : List HostAction) : step { s with actions := .wr k (numberOf r) v :: rest } =
      .next { s with actions := rest, ctxs := s.ctxs.set k (writeRegister c r v) } :=
  (step_wr hc hr v rest).trans (if_pos hv)

/-- A write of a register that is read-only has no effect (R34, R35). -/
theorem step_wr_readOnly {r : CtxReg} {v : Word64} (hr : r ≠ .cmd) (hkept : writeRegister c r v = c)
    (hv : v.toNat < 2 ^ widthOf r) (rest : List HostAction) :
    step { s with actions := .wr k (numberOf r) v :: rest } = .next { s with actions := rest } := by
  obtain ⟨hlt, rfl⟩ := List.getElem?_eq_some_iff.mp hc
  rw [step_wr_fits hc hr hv, hkept, List.set_getElem_self]

/-- The step of a read of a context register, by its number (R24). -/
theorem step_rd (r : CtxReg) (rest : List HostAction) : step { s with actions := .rd k (numberOf r) :: rest } =
    .next { s with actions := rest, replies := s.replies ++ [.register (readRegister c r)] } :=
  hostRead_ctx (s := { s with actions := rest }) hc (regOfNumber_numberOf r)

/-- The step of a read of a global register by its number, through a context (assumption 14). -/
theorem step_rd_global {g : GlobalReg} (hr : regOfNumber n = .global g) (rest : List HostAction) :
    step { s with actions := .rd k n :: rest } =
      .next { s with actions := rest, replies := s.replies ++ [.register (readGlobal s g)] } :=
  hostRead_global (s := { s with actions := rest }) hc hr

end

/-- Settles O48: each number names its register, and each register its field. -/
theorem operandRegistersReadBackWhatWasWritten : Obligations.OperandRegistersReadBackWhatWasWritten := by
  refine ⟨by decide, fun s k c v rest hc => ?_⟩
  have hv : v.toNat < 2 ^ 64 := v.isLt
  exact ⟨⟨step_wr_fits hc (r := .src) (by decide) hv rest, step_rd hc .src rest⟩,
    ⟨step_wr_fits hc (r := .cnt) (by decide) hv rest, step_rd hc .cnt rest⟩,
    ⟨step_wr_fits hc (r := .dst) (by decide) hv rest, step_rd hc .dst rest⟩,
    ⟨step_wr_fits hc (r := .rid) (by decide) hv rest, step_rd hc .rid rest⟩,
    ⟨step_wr_fits hc (r := .lbase) (by decide) hv rest, step_rd hc .lbase rest⟩,
    ⟨step_wr_fits hc (r := .xbase) (by decide) hv rest, step_rd hc .xbase rest⟩,
    ⟨step_wr hc (r := .layer) (by decide) v rest, step_rd hc .layer rest⟩,
    ⟨step_wr_fits hc (r := .node) (by decide) hv rest, step_rd hc .node rest⟩,
    ⟨step_wr hc (r := .cache) (by decide) v rest, step_rd hc .cache rest⟩⟩

/-! ### `STATUS` -/

section
variable (c : Context)

theorem statusWord_fault : (statusWord c).extractLsb' 0 8 = faultField c := by
  rw [statusWord, BitVec.extractLsb'_append_eq_of_add_le (by decide), BitVec.extractLsb'_eq_self]

theorem statusWord_res : (statusWord c).extractLsb' 8 8 = c.res.code := by
  rw [statusWord, BitVec.extractLsb'_append_eq_of_le (by decide),
    BitVec.extractLsb'_append_eq_of_add_le (by decide), BitVec.extractLsb'_eq_self]

theorem statusWord_hlive : (statusWord c).getLsbD 16 = hlive c := by
  rw [statusWord, BitVec.getLsbD_append, if_neg (by decide), BitVec.getLsbD_append, if_neg (by decide),
    BitVec.getLsbD_append, if_pos (by decide)]
  simp

theorem statusWord_reserved : (statusWord c).extractLsb' 17 15 = 0 := by
  rw [statusWord, BitVec.extractLsb'_append_eq_of_le (by decide), BitVec.extractLsb'_append_eq_of_le (by decide),
    BitVec.extractLsb'_append_eq_of_le (by decide), BitVec.extractLsb'_eq_self]

end

/-- Settles O50: `STATUS` is made of its fields, and the codes of R251 are distinct. -/
theorem statusRegisterHasItsFields : Obligations.StatusRegisterHasItsFields := by
  refine ⟨fun c => ⟨statusWord_fault c, ?_, statusWord_hlive c, statusWord_reserved c, ?_⟩,
    fun s k c v rest hc => ⟨step_rd hc .status rest, step_rd hc .errInfo rest,
      fun hv => step_wr_readOnly hc (r := .status) (by decide) rfl hv rest,
      step_wr_readOnly hc (r := .errInfo) (by decide) rfl v.isLt rest⟩⟩
  · rw [statusWord_res]
    cases c.res <;> rfl
  · unfold faultField
    cases c.fault with
    | none => simp
    | some f =>
      cases f with
      | cfg e => cases e <;> simp [FaultCause.code, CfgError.code]
      | _ => simp [FaultCause.code]

/-! ### The global registers -/

theorem cpucapWord_bits (i : SelInputs) :
    (cpucapWord i).getLsbD 0 = i.archOk ∧ (cpucapWord i).getLsbD 1 = i.cpuAvx ∧
      (cpucapWord i).getLsbD 2 = i.cpuAvx2 ∧ (cpucapWord i).extractLsb' 3 29 = 0 := by
  obtain ⟨archOk, cpuAvx, cpuAvx2, featAvx, featAvx2⟩ := i
  revert archOk cpuAvx cpuAvx2 featAvx featAvx2
  decide

theorem featselWord_bits (i : SelInputs) :
    (featselWord i).getLsbD 0 = i.featAvx ∧ (featselWord i).getLsbD 1 = i.featAvx2 ∧
      (featselWord i).extractLsb' 2 30 = 0 := by
  obtain ⟨archOk, cpuAvx, cpuAvx2, featAvx, featAvx2⟩ := i
  revert archOk cpuAvx cpuAvx2 featAvx featAvx2
  decide

theorem regOfNumber_ne_ctx {n : Nat} (h : 0x40 ≤ n) (r : CtxReg) : regOfNumber n ≠ .ctx r := by
  unfold regOfNumber
  split
  case h_13 | h_14 | h_15 | h_16 => exact nofun
  all_goals omega

/-- Settles O51: the words by their bits, and the reads and writes by number. -/
theorem globalRegistersHaveTheirBits : Obligations.GlobalRegistersHaveTheirBits := by
  refine ⟨fun i => ?_, by decide, fun s rest => ⟨rfl, rfl, rfl, fun k hk => ?_⟩⟩
  · obtain ⟨harch, havx, havx2, hzero⟩ := cpucapWord_bits i
    exact ⟨harch, havx, havx2, hzero, featselWord_bits i⟩
  · have hc : s.ctxs[k]? = some s.ctxs[k] := List.getElem?_eq_getElem hk
    exact ⟨step_rd_global hc (n := 0x40) (g := .cpucap) rfl rest,
      step_rd_global hc (n := 0x41) (g := .featsel) rfl rest,
      step_rd_global hc (n := 0x42) (g := .backend) rfl rest,
      fun n v hn _ => hostWrite_of_not_ctx (s := { s with actions := rest }) hc (regOfNumber_ne_ctx hn) exec v⟩

/-! ### Memory accesses and reset -/

section
variable {s : State} {addr : Nat} (rest : List HostAction)

theorem step_mw {bytes : List Byte} (h : addr + bytes.length ≤ s.memSize) :
    step { s with actions := .mw addr bytes :: rest } =
      .next { s with actions := rest, mem := memWrite s.mem addr bytes } :=
  if_pos (inRange_iff.mpr h)

theorem step_mr {n : Nat} (h : addr + n ≤ s.memSize) :
    step { s with actions := .mr addr n :: rest } =
      .next { s with actions := rest, replies := s.replies ++ [.bytes (readList s.mem addr n)] } :=
  if_pos (inRange_iff.mpr h)

end

/-- Settles O52: the read hands back what the write stored. -/
theorem hostMemoryActionsReadAndWriteMemory : Obligations.HostMemoryActionsReadAndWriteMemory := by
  intro s addr bytes rest hwf hrange
  refine ⟨memWrite s.mem addr bytes, step_mw _ hrange, ?_, fun _ => readByte_memWrite_outside s.mem addr bytes⟩
  have hread := step_mr (s := { s with mem := memWrite s.mem addr bytes }) rest hrange
  rwa [readList_memWrite hwf] at hread

/-- Settles O54: the step is `resetUnit`. -/
theorem resetActionResetsTheUnit : Obligations.ResetActionResetsTheUnit := by
  intro s inputs rest hact
  exact ⟨_, step_of_actions hact, List.length_replicate, resetUnit_reset _ inputs, rfl, rfl, rfl, rfl, rfl, rfl⟩

/-! ### Words issued -/

/-- Settles O1: the words of the commands by the encoder, those beside them by evaluation. -/
theorem wordsOfTheOpcodeMapDecode : Obligations.WordsOfTheOpcodeMapDecode :=
  ⟨decode_encode .bsel, decode_encode .hnew, decode_encode .hinput, decode_encode .hfinish, decode_encode .hfinishw,
    decode_encode .expand, decode_encode .clabel, decode_encode .clabelx, by decide⟩

/-- Settles O2: every instruction is well formed. -/
theorem decodeOfEncodeIsTheCommand : Obligations.DecodeOfEncodeIsTheCommand :=
  fun i _ => decode_encode i

/-- Settles O4: the step issues the word. -/
theorem stepRunsTheDecodedCommand : Obligations.StepRunsTheDecodedCommand := by
  intro s k w rest i hact hw
  rw [step_cmd hact, issue_command hw]

/-- Settles O7: a command and an illegal word alike do nothing in a faulted context. -/
theorem faultedContextIgnoresEveryWord : Obligations.FaultedContextIgnoresEveryWord := by
  intro s k w rest c hact hc hf
  have hctx : State.context? { s with actions := rest, current := k } = some c := hc
  rw [step_cmd hact]
  obtain hw | ⟨i, hw⟩ := decode_illegal_or_command w
  · rw [issue_illegal hw, runIllegal_faulted hctx hf]
  · rw [issue_command hw, exec_eq, runCommand_faulted hctx hf]

/-! ### When an action is performed -/

/-- A memory access is performed exactly when its range check holds (R81). -/
theorem exists_ite_fault_eq_next_iff {p : Prop} [Decidable p] {t : State} {f : Fault} :
    (∃ u, (if p then .next t else .fault f : StepOutcome) = .next u) ↔ p := by
  by_cases hp : p
  · simp [hp]
  · simp [hp]

/-- A register write is performed exactly when its context exists and its value fits (R21, R24). -/
theorem exists_hostWrite_eq_next_iff {k n : Nat} {v : Word64} {s : State} (memSize : Nat) :
    (∃ t, hostWrite exec k n v s = .next t) ↔ HostAction.wf s.ctxs.length memSize (.wr k n v) = true := by
  cases hc : s.ctxs[k]? with
  | none =>
    have hk : ¬ k < s.ctxs.length := (List.getElem?_eq_none_iff.mp hc).not_gt
    simp [hostWrite_noContext hc, HostAction.wf, hk]
  | some c =>
    have hk : k < s.ctxs.length := (List.getElem?_eq_some_iff.mp hc).1
    cases hn : regOfNumber n with
    | ctx r =>
      rw [hostWrite_ctx hc hn]
      by_cases hv : v.toNat < 2 ^ widthOf r
      · by_cases hr : r = .cmd
        · subst hr
          rw [if_pos hv, if_pos rfl, exists_issue_eq_next_iff]
          simp [HostAction.wf, hn, hv]
        · simp [HostAction.wf, hk, hn, hv, hr]
      · simp [HostAction.wf, hn, hv]
    | global g => simp [hostWrite_of_not_ctx hc, HostAction.wf, hk, hn]
    | unmapped => simp [hostWrite_of_not_ctx hc, HostAction.wf, hk, hn]

/-- Settles O8: by the kind of action. -/
theorem hostActionIsPerformedExactlyWhenWellFormed : Obligations.HostActionIsPerformedExactlyWhenWellFormed := by
  intro s a rest hact
  rw [step_of_actions hact]
  cases a with
  | cmd k w =>
    rw [HostAction.wf, decide_eq_true_iff]
    exact exists_issue_eq_next_iff
  | wr k n v => exact exists_hostWrite_eq_next_iff s.memSize
  | rd k n =>
    rw [HostAction.wf, decide_eq_true_iff]
    cases hc : s.ctxs[k]? with
    | none =>
      have hk : ¬ k < s.ctxs.length := (List.getElem?_eq_none_iff.mp hc).not_gt
      simp [perform, hostRead_noContext (s := { s with actions := rest }) hc, hk]
    | some c =>
      exact iff_of_true (exists_hostRead_eq_next (s := { s with actions := rest }) hc)
        (List.getElem?_eq_some_iff.mp hc).1
  | rdGlobal g => exact iff_of_true ⟨_, rfl⟩ rfl
  | mw addr bytes =>
    rw [HostAction.wf, decide_eq_true_iff]
    exact exists_ite_fault_eq_next_iff.trans inRange_iff
  | mr addr n =>
    rw [HostAction.wf, decide_eq_true_iff]
    exact exists_ite_fault_eq_next_iff.trans inRange_iff
  | reset inputs => exact iff_of_true ⟨_, rfl⟩ rfl

/-! ### What an action does to memory -/

/-- A read only hands a value back (R24). -/
theorem hostRead_eq_reply {k n : Nat} {s t : State} (h : hostRead k n s = .next t) : ∃ r, t = s.reply r := by
  unfold hostRead at h
  split at h
  · cases h
  · split at h <;> exact ⟨_, (Host.Outcome.next.inj h).symm⟩

/-- An illegal word leaves memory alone; a command is executed (R97, R252). -/
theorem issue_mem {k : Nat} {w : Word32} {s t : State} (h : issue exec k w s = .next t) :
    t.mem = s.mem ∨ ∃ i, decode w = .command i ∧ exec i { s with current := k } = .next t := by
  obtain hw | ⟨i, hw⟩ := decode_illegal_or_command w
  · rw [issue_illegal hw] at h
    obtain ⟨c, -, ⟨-, rfl⟩ | ⟨-, rfl⟩⟩ := runIllegal_cases h
    · exact .inl rfl
    · exact .inl rfl
  · exact .inr ⟨i, hw, by rwa [issue_command hw] at h⟩

/-- A register write leaves memory alone or issues a word (R24, R27). -/
theorem hostWrite_mem {k n : Nat} {v : Word64} {s t : State} (h : hostWrite exec k n v s = .next t) :
    t.mem = s.mem ∨ (regOfNumber n = .ctx .cmd ∧ issue exec k (v.setWidth 32) s = .next t) := by
  cases hc : s.ctxs[k]? with
  | none => cases (hostWrite_noContext hc exec v).symm.trans h
  | some c =>
    by_cases hn : ∃ r, regOfNumber n = .ctx r
    · obtain ⟨r, hr⟩ := hn
      rw [hostWrite_ctx hc hr] at h
      split at h
      · split at h
        next hcmd => exact .inr ⟨hcmd ▸ hr, h⟩
        next =>
          cases h
          exact .inl rfl
      · cases h
    · rw [hostWrite_of_not_ctx hc (not_exists.mp hn)] at h
      cases h
      exact .inl rfl

theorem hostRead_mem {k n : Nat} {s t : State} (h : hostRead k n s = .next t) : t.mem = s.mem := by
  obtain ⟨r, rfl⟩ := hostRead_eq_reply h
  exact reply_mem s r

/-- What a host action can do to memory: nothing, its own write, or a command's (R63, R81). -/
theorem perform_mem {a : HostAction} {s t : State} (h : perform exec a s = .next t) :
    t.mem = s.mem ∨
      (∃ addr bytes, a = .mw addr bytes ∧ t.mem = memWrite s.mem addr bytes) ∨
      ∃ k w i, issuedWord a = some (k, w) ∧ decode w = .command i ∧ exec i { s with current := k } = .next t := by
  cases a with
  | cmd k w =>
    obtain hmem | ⟨i, hw, hexec⟩ := issue_mem h
    · exact .inl hmem
    · exact .inr (.inr ⟨k, w, i, rfl, hw, hexec⟩)
  | wr k n v =>
    obtain hmem | ⟨hr, hissue⟩ := hostWrite_mem h
    · exact .inl hmem
    · obtain hmem | ⟨i, hw, hexec⟩ := issue_mem hissue
      · exact .inl hmem
      · exact .inr (.inr ⟨k, _, i, if_pos hr, hw, hexec⟩)
  | rd k n => exact .inl (hostRead_mem h)
  | rdGlobal g =>
    cases h
    exact .inl rfl
  | mw addr bytes =>
    rw [perform] at h
    split at h
    · cases h
      exact .inr (.inl ⟨addr, bytes, rfl, rfl⟩)
    · cases h
  | mr addr n =>
    rw [perform] at h
    split at h
    · cases h
      exact .inl rfl
    · cases h
  | reset inputs =>
    cases h
    exact .inl rfl

/-- A command changes no byte outside its store (R63, R68). -/
theorem inStore_of_readByte_ne {i : Instr} {s t : State} {c : Context} {a : Nat} (hc : s.context? = some c)
    (h : exec i s = .next t) (hne : readByte t.mem a ≠ readByte s.mem a) : inStore (storeRange i c) a := by
  obtain ⟨-, -, -, -, -, -, frame, -⟩ := commandFrame i s t c hc h
  exact not_not.mp fun hout => hne (frame a hout)

/-- Settles O45: by what the performed action does to memory. -/
theorem onlyStoresChangeMemory : Obligations.OnlyStoresChangeMemory := by
  intro s t a hstep hne
  obtain ⟨-, rfl⟩ | ⟨act, rest, hact, hperform⟩ := step_cases hstep
  · exact absurd rfl hne
  obtain hmem | ⟨addr, bytes, rfl, hmem⟩ | ⟨k, w, i, hissued, hw, hexec⟩ := perform_mem hperform
  · exact absurd (congrArg (readByte · a) hmem) hne
  · refine .inl ⟨addr, bytes, rest, hact, ?_⟩
    by_contra hout
    exact hne (hmem ▸ readByte_memWrite_outside s.mem addr bytes (by omega))
  · obtain ⟨c, hc, -⟩ := exec_cases hexec
    exact .inr ⟨act, rest, k, w, i, c, hact, hissued, hw, hc, inStore_of_readByte_ne hc hexec hne⟩

end Sys2Proof.Machine

/-! ## What determines its reading or its bytes: canonical memories, and proof streams -/

namespace Sys2Proof.Machine

/-! ### Canonical memories -/

theorem readByte_cons_self (k : Nat) (v : Byte) (m : Memory) : readByte ((k, v) :: m) k = v :=
  if_pos rfl

theorem readByte_cons_ne {k a : Nat} (h : k ≠ a) (v : Byte) (m : Memory) : readByte ((k, v) :: m) a = readByte m a :=
  if_neg h

/-- A canonical memory has no entry below the first entry of one it reads like. -/
theorem not_lt_of_readByte_eq {m : Memory} {k : Nat} {v : Byte} {n : Memory} (hv : v ≠ unwrittenByte)
    (h : readByte ((k, v) :: m) k = readByte n k) : ¬ ∀ p ∈ n, k < p.1 := by
  intro hbelow
  rw [readByte_cons_self, readByte_below hbelow] at h
  exact hv h

/-- Canonical memories that read alike have the same first entry, and then the same rest (assumption 5). -/
theorem eq_of_readByte_eq {m n : Memory} (hm : Memory.wf m) (hn : Memory.wf n)
    (h : ∀ a, readByte m a = readByte n a) : m = n := by
  induction m generalizing n with
  | nil =>
    cases n with
    | nil => rfl
    | cons q n => exact absurd (by simp) (not_lt_of_readByte_eq (hn.2 q List.mem_cons_self) (h q.1).symm)
  | cons p m ih =>
    obtain ⟨k, v⟩ := p
    have hv : v ≠ unwrittenByte := hm.2 (k, v) List.mem_cons_self
    cases n with
    | nil => exact absurd (by simp) (not_lt_of_readByte_eq hv (h k))
    | cons q n =>
      obtain ⟨k', v'⟩ := q
      have hv' : v' ≠ unwrittenByte := hn.2 (k', v') List.mem_cons_self
      obtain ⟨hmwf, hmbelow⟩ := wf_tail hm
      obtain ⟨hnwf, hnbelow⟩ := wf_tail hn
      have hge : ¬ k < k' := fun hlt => not_lt_of_readByte_eq hv (h k)
        (List.forall_mem_cons.mpr ⟨hlt, fun q hq => hlt.trans (hnbelow q hq)⟩)
      have hle : ¬ k' < k := fun hlt => not_lt_of_readByte_eq hv' (h k').symm
        (List.forall_mem_cons.mpr ⟨hlt, fun q hq => hlt.trans (hmbelow q hq)⟩)
      obtain rfl : k = k' := by omega
      obtain rfl : v = v' := by simpa only [readByte_cons_self] using h k
      have hrest : m = n := ih hmwf hnwf fun a => by
        by_cases ha : k = a
        · subst ha
          rw [readByte_below hmbelow, readByte_below hnbelow]
        · simpa only [readByte_cons_ne ha] using h a
      rw [hrest]

/-- Settles O47: writes keep the form, and the form is determined by what it reads as. -/
theorem canonicalMemoriesThatReadAlikeAreEqual : Obligations.CanonicalMemoriesThatReadAlikeAreEqual :=
  ⟨fun _ addr bytes hwf => memWrite_wf hwf addr bytes, fun _ _ => eq_of_readByte_eq⟩

/-! ### Proof streams -/

/-- The big-endian bytes determine the number, up to what they leave out. -/
theorem mod_eq_of_beBytes_eq {n v w : Nat} (h : beBytes n v = beBytes n w) : v % 256 ^ n = w % 256 ^ n := by
  induction n with
  | zero => simp [Nat.mod_one]
  | succ n ih =>
    obtain ⟨hbyte, hrest⟩ := List.cons.inj h
    have htop : v / 256 ^ n % 256 = w / 256 ^ n % 256 := by simpa using congrArg BitVec.toNat hbyte
    rw [Nat.mod_pow_succ, Nat.mod_pow_succ, ih hrest, htop]

theorem be32_injective : Function.Injective be32 := by
  intro v w h
  have hmod : v.toNat % 2 ^ 32 = w.toNat % 2 ^ 32 := mod_eq_of_beBytes_eq (n := 4) (congrArg Bytes.data h)
  exact BitVec.eq_of_toNat_eq (by rwa [Nat.mod_eq_of_lt v.isLt, Nat.mod_eq_of_lt w.isLt] at hmod)

theorem be64_injective : Function.Injective be64 := by
  intro v w h
  have hmod : v.toNat % 2 ^ 64 = w.toNat % 2 ^ 64 := mod_eq_of_beBytes_eq (n := 8) (congrArg Bytes.data h)
  exact BitVec.eq_of_toNat_eq (by rwa [Nat.mod_eq_of_lt v.isLt, Nat.mod_eq_of_lt w.isLt] at hmod)

theorem expandBytes_injective : Function.Injective expandBytes := by
  intro x y h
  apply bytes_eq_of_data_eq
  rw [← expandBytes_take, h, expandBytes_take]

/-- The header is the layer and the node, each of a fixed length (R231). -/
theorem proofHeader_inj {p q : NodeProof} (h : proofHeader p = proofHeader q) :
    p.layerIndex = q.layerIndex ∧ p.node = q.node := by
  obtain ⟨hlayer, hnode⟩ := List.append_inj (congrArg Bytes.data h) (by rw [Bytes.size, Bytes.size])
  exact ⟨be32_injective (bytes_eq_of_data_eq hlayer), be64_injective (bytes_eq_of_data_eq hnode)⟩

/-- As many strings of one length are determined by their concatenation. -/
theorem eq_of_flatMap_data_eq {α : Type} {n : Nat} {f : α → Bytes n} (hf : Function.Injective f) {l m : List α}
    (hlen : l.length = m.length) (h : (l.flatMap fun q => (f q).data) = m.flatMap fun q => (f q).data) : l = m := by
  refine List.ext_getElem hlen fun i hl hm => hf (bytes_eq_of_data_eq ?_)
  rw [← take_drop_flatMap_data f (List.getElem?_eq_getElem hl), h,
    take_drop_flatMap_data f (List.getElem?_eq_getElem hm)]

/-- Settles O59: the identifier, the header and the parents stand at fixed places, each determined by its bytes. -/
theorem proofStreamIsInjective : Obligations.ProofStreamIsInjective := by
  intro rid rid' p p' hlen h
  rw [proofStream_eq, proofStream_eq] at h
  obtain ⟨hrid, hrest⟩ := List.append_inj h (by rw [Bytes.size, Bytes.size])
  obtain ⟨hheader, hparents⟩ := List.append_inj hrest (by rw [Bytes.size, Bytes.size])
  obtain ⟨hlayer, hnode⟩ := proofHeader_inj (bytes_eq_of_data_eq hheader)
  have hpar : p'.parents = p.parents := eq_of_flatMap_data_eq expandBytes_injective hlen hparents
  refine ⟨expandBytes_injective (bytes_eq_of_data_eq hrid), ?_⟩
  cases p
  cases p'
  rw [NodeProof.mk.injEq]
  exact ⟨hpar, hlayer, hnode⟩

end Sys2Proof.Machine
